-- ==== Sys2Proof/Word.lean ====
section
/-! DEFINITION. The word types of the block (00_scope.md R5, R7, R8): arithmetic on them is modulo `2 ^ width`. -/

namespace Sys2Proof

/-- A register value, memory word, address or instruction word: 16 bits (00_scope.md R5 `XLEN`, `ADDR_WIDTH`, `ILEN`). -/
abbrev Word := BitVec 16

/-- A console, keyboard, image or patch byte, and the width of a trap vector (R5 `TRAPVECT_BITS`). -/
abbrev Byte := BitVec 8

/-- A general register's index: a 3-bit field, so there is no out-of-range case (10_state.md R21). -/
abbrev RegIdx := BitVec 3

end Sys2Proof
end

