-- ==== Sys2Proof/Syntax.lean ====
section
/-! DEFINITION. The instructions, one constructor per row of spec/opcode_table.json (30_encoding.md R77, R78).
An immediate is held as the decoder hands it to the handler: sign-extended to 16 bits (R74, R79).
Don't-care bits are not part of an instruction (R76). -/

namespace Sys2Proof

inductive Instr where
  /-- BR `nzp`, PCoffset9 (42_control.md R130). -/
  | br (nzp : BitVec 3) (off9 : Word)
  /-- ADD `DR`, `SR1`, `SR2` (40_operate.md R100). -/
  | addReg (dr sr1 sr2 : RegIdx)
  /-- ADD `DR`, `SR1`, `imm5` (R101). -/
  | addImm (dr sr1 : RegIdx) (imm5 : Word)
  /-- LD `DR`, PCoffset9 (41_data_movement.md R110). -/
  | ld (dr : RegIdx) (off9 : Word)
  /-- ST `SR`, PCoffset9 (R111). -/
  | st (sr : RegIdx) (off9 : Word)
  /-- JSR PCoffset11 (42_control.md R131). -/
  | jsr (off11 : Word)
  /-- JSRR `BaseR` (R132). -/
  | jsrr (baseR : RegIdx)
  /-- AND `DR`, `SR1`, `SR2` (40_operate.md R102). -/
  | andReg (dr sr1 sr2 : RegIdx)
  /-- AND `DR`, `SR1`, `imm5` (R103). -/
  | andImm (dr sr1 : RegIdx) (imm5 : Word)
  /-- LDR `DR`, `BaseR`, offset6 (41_data_movement.md R112). -/
  | ldr (dr baseR : RegIdx) (off6 : Word)
  /-- STR `SR`, `BaseR`, offset6 (R113). -/
  | str (sr baseR : RegIdx) (off6 : Word)
  /-- RTI (42_control.md R133). -/
  | rti
  /-- NOT `DR`, `SR` (40_operate.md R104). -/
  | notReg (dr sr : RegIdx)
  /-- LDI `DR`, PCoffset9 (41_data_movement.md R114). -/
  | ldi (dr : RegIdx) (off9 : Word)
  /-- STI `SR`, PCoffset9 (R115). -/
  | sti (sr : RegIdx) (off9 : Word)
  /-- JMP `BaseR`; RET is JMP R7 (42_control.md R134). -/
  | jmp (baseR : RegIdx)
  /-- RES, opcode 13 (R135). -/
  | res
  /-- LEA `DR`, PCoffset9 (41_data_movement.md R116). -/
  | lea (dr : RegIdx) (off9 : Word)
  /-- TRAP `trapvect8` (43_trap.md R150). -/
  | trap (vect : Byte)
deriving DecidableEq, Repr

end Sys2Proof
end

