-- ==== Sys2Proof/WellFormed.lean ====
section
/-! DEFINITION. Which instructions the encoding admits: an immediate lies in the signed range of its field
(30_encoding.md R74). Register numbers, condition bits and trap vectors are in range by their type (R21, R72). -/

namespace Sys2Proof

/-- The 16-bit value `v`, read as signed, lies in the signed range of an `n`-bit field (30_encoding.md R74). -/
def fitsSigned (n : Nat) (v : Word) : Bool :=
  decide (-(2 ^ (n - 1) : Int) ≤ v.toInt ∧ v.toInt < (2 ^ (n - 1) : Int))

/-- An instruction some word encodes. -/
def Instr.wf : Instr → Bool
  | .br _ off9 => fitsSigned 9 off9
  | .addReg _ _ _ => true
  | .addImm _ _ imm5 => fitsSigned 5 imm5
  | .ld _ off9 => fitsSigned 9 off9
  | .st _ off9 => fitsSigned 9 off9
  | .jsr off11 => fitsSigned 11 off11
  | .jsrr _ => true
  | .andReg _ _ _ => true
  | .andImm _ _ imm5 => fitsSigned 5 imm5
  | .ldr _ _ off6 => fitsSigned 6 off6
  | .str _ _ off6 => fitsSigned 6 off6
  | .rti => true
  | .notReg _ _ => true
  | .ldi _ off9 => fitsSigned 9 off9
  | .sti _ off9 => fitsSigned 9 off9
  | .jmp _ => true
  | .res => true
  | .lea _ off9 => fitsSigned 9 off9
  | .trap _ => true

end Sys2Proof
end

