-- ==== Sys2Proof/Decode.lean ====
section
/-! DEFINITION. The field decoder, the selection by opcode, the encoder, and the opcode table (30_encoding.md).
Every one of the 65,536 words decodes (R78); what is rejected, by name, is a bit string that is not one word (R70). -/

namespace Sys2Proof

/-- Sign extension of an `n`-bit value held in a word, by the source's contract: if bit `n-1` is set the result is
`input OR (0xFFFF << n)`, otherwise the input (00_scope.md R9). -/
def sext (n : Nat) (v : Word) : Word :=
  if v.getLsbD (n - 1) then v ||| (0xFFFF#16 <<< n) else v

/-- The field of `len` bits from bit `lo` up, zero-extended to a word (00_scope.md R7, R10). -/
def bits (w : Word) (lo len : Nat) : Word := (w.extractLsb' lo len).setWidth 16

/-- The tuple the decoder extracts from every word, whether or not the opcode uses a field (30_encoding.md R79). -/
structure Fields where
  /-- `w[15:12]` -/
  op : BitVec 4
  /-- `DR`, or `SR` of a store: `w[11:9]` -/
  dr : RegIdx
  /-- `SR1`, `BaseR`, or `SR` of NOT: `w[8:6]` -/
  sr1 : RegIdx
  /-- `w[5]` -/
  immMode : Bool
  /-- `w[2:0]` -/
  sr2 : RegIdx
  imm5v : Word
  off6v : Word
  off9v : Word
  /-- `w[11]` -/
  jsrMode : Bool
  off11v : Word
  /-- the condition bits N, Z, P: `w[11:9]` -/
  nzp : BitVec 3
  /-- `w[7:0]`; a selector, not sign-extended -/
  vect : Byte
deriving DecidableEq, Repr

/-- The field decoder: pure, stateless and total (30_encoding.md R72, R74, R79). -/
def fields (w : Word) : Fields where
  op := w.extractLsb' 12 4
  dr := w.extractLsb' 9 3
  sr1 := w.extractLsb' 6 3
  immMode := w.getLsbD 5
  sr2 := w.extractLsb' 0 3
  imm5v := sext 5 (bits w 0 5)
  off6v := sext 6 (bits w 0 6)
  off9v := sext 9 (bits w 0 9)
  jsrMode := w.getLsbD 11
  off11v := sext 11 (bits w 0 11)
  nzp := w.extractLsb' 9 3
  vect := w.extractLsb' 0 8

/-- The selection among the sixteen opcodes, and among the two forms of ADD, AND and JSR (30_encoding.md R75, R77). -/
def select (f : Fields) : Instr :=
  match f.op.toNat with
  | 0 => .br f.nzp f.off9v
  | 1 => if f.immMode then .addImm f.dr f.sr1 f.imm5v else .addReg f.dr f.sr1 f.sr2
  | 2 => .ld f.dr f.off9v
  | 3 => .st f.dr f.off9v
  | 4 => if f.jsrMode then .jsr f.off11v else .jsrr f.sr1
  | 5 => if f.immMode then .andImm f.dr f.sr1 f.imm5v else .andReg f.dr f.sr1 f.sr2
  | 6 => .ldr f.dr f.sr1 f.off6v
  | 7 => .str f.dr f.sr1 f.off6v
  | 8 => .rti
  | 9 => .notReg f.dr f.sr1
  | 10 => .ldi f.dr f.off9v
  | 11 => .sti f.dr f.off9v
  | 12 => .jmp f.sr1
  | 13 => .res
  | 14 => .lea f.dr f.off9v
  | _ => .trap f.vect

/-- The decoder: a total function of the word (30_encoding.md R70, R78, R79). -/
def decode (w : Word) : Instr := select (fields w)

/-- Why a bit string is no instruction. -/
inductive DecodeError where
  /-- Its length is not one word: every instruction is exactly one 16-bit word (30_encoding.md R70). -/
  | notOneWord (nbits : Nat)
  /-- It has a bit above the word. -/
  | bitsAboveWord
deriving DecidableEq, Repr

/-- The decoder on `nbits` bits given as the number `w`, bit 0 the least significant bit of the word. Any length but one
word is refused: there are no compressed, prefixed or multi-word forms (30_encoding.md R70). -/
def decodeBits (nbits w : Nat) : Except DecodeError Instr :=
  if nbits ≠ 16 then .error (.notOneWord nbits)
  else if 2 ^ 16 ≤ w then .error .bitsAboveWord
  else .ok (decode (BitVec.ofNat 16 w))

/-- What the decoder reads from an opcode-table word of `nbits` bits; every row of the table has 16. -/
def decodeTableWord (nbits w : Nat) : Option Instr :=
  match decodeBits nbits w with
  | .ok i => some i
  | .error _ => none

/-! ### The encoder: the formats of 30_encoding.md R73, bit 15 on the left

Don't-care bits are written as the LC-3 assembler writes them: ones in NOT (R73), zeros elsewhere, as in RET and
HALT (R85). -/

/-- Format BR: `0000 n z p PCoffset9`. -/
def encBr (nzp : BitVec 3) (off9 : Word) : Word :=
  (0b0000#4 ++ nzp ++ (off9.setWidth 9 : BitVec 9) : BitVec (4 + 3 + 9))

/-- Format RRR: `op DR SR1 0 xx SR2`. -/
def encRRR (op : BitVec 4) (dr sr1 sr2 : RegIdx) : Word :=
  (op ++ dr ++ sr1 ++ 0b000#3 ++ sr2 : BitVec (4 + 3 + 3 + 3 + 3))

/-- Format RRI: `op DR SR1 1 imm5`. -/
def encRRI (op : BitVec 4) (dr sr1 : RegIdx) (imm5 : Word) : Word :=
  (op ++ dr ++ sr1 ++ 1#1 ++ (imm5.setWidth 5 : BitVec 5) : BitVec (4 + 3 + 3 + 1 + 5))

/-- Format PC9: `op DR-or-SR PCoffset9`. -/
def encPC9 (op : BitVec 4) (r : RegIdx) (off9 : Word) : Word :=
  (op ++ r ++ (off9.setWidth 9 : BitVec 9) : BitVec (4 + 3 + 9))

/-- Format J11: `0100 1 PCoffset11`. -/
def encJ11 (off11 : Word) : Word :=
  (0b0100#4 ++ 1#1 ++ (off11.setWidth 11 : BitVec 11) : BitVec (4 + 1 + 11))

/-- Format JR: `0100 0 xx BaseR xxxxxx`, and format J: `1100 xxx BaseR xxxxxx`. -/
def encBase (op : BitVec 4) (baseR : RegIdx) : Word :=
  (op ++ 0b000#3 ++ baseR ++ 0b000000#6 : BitVec (4 + 3 + 3 + 6))

/-- Format B6: `op DR-or-SR BaseR offset6`. -/
def encB6 (op : BitVec 4) (r baseR : RegIdx) (off6 : Word) : Word :=
  (op ++ r ++ baseR ++ (off6.setWidth 6 : BitVec 6) : BitVec (4 + 3 + 3 + 6))

/-- Format UN: `1001 DR SR 111111`. -/
def encUN (dr sr : RegIdx) : Word :=
  (0b1001#4 ++ dr ++ sr ++ 0b111111#6 : BitVec (4 + 3 + 3 + 6))

/-- Format T: `1111 xxxx trapvect8`. -/
def encT (vect : Byte) : Word := (0b1111#4 ++ 0b0000#4 ++ vect : BitVec (4 + 4 + 8))

/-- Format N: `op xxxxxxxxxxxx`. -/
def encN (op : BitVec 4) : Word := (op ++ 0#12 : BitVec (4 + 12))

/-- The word of a well-formed instruction (30_encoding.md R73, R77). -/
def encode : Instr → Word
  | .br nzp off9 => encBr nzp off9
  | .addReg dr sr1 sr2 => encRRR 0b0001#4 dr sr1 sr2
  | .addImm dr sr1 imm5 => encRRI 0b0001#4 dr sr1 imm5
  | .ld dr off9 => encPC9 0b0010#4 dr off9
  | .st sr off9 => encPC9 0b0011#4 sr off9
  | .jsr off11 => encJ11 off11
  | .jsrr baseR => encBase 0b0100#4 baseR
  | .andReg dr sr1 sr2 => encRRR 0b0101#4 dr sr1 sr2
  | .andImm dr sr1 imm5 => encRRI 0b0101#4 dr sr1 imm5
  | .ldr dr baseR off6 => encB6 0b0110#4 dr baseR off6
  | .str sr baseR off6 => encB6 0b0111#4 sr baseR off6
  | .rti => encN 0b1000#4
  | .notReg dr sr => encUN dr sr
  | .ldi dr off9 => encPC9 0b1010#4 dr off9
  | .sti sr off9 => encPC9 0b1011#4 sr off9
  | .jmp baseR => encBase 0b1100#4 baseR
  | .res => encN 0b1101#4
  | .lea dr off9 => encPC9 0b1110#4 dr off9
  | .trap vect => encT vect

/-! ### The opcode table -/

/-- A row of spec/opcode_table.json: a word `w` is of the row when `w AND mask = pattern`. -/
structure OpcodeRow where
  mnemonic : String
  pattern : Word
  mask : Word
deriving DecidableEq, Repr

def OpcodeRow.covers (r : OpcodeRow) (w : Word) : Bool := w &&& r.mask == r.pattern

/-- The row of spec/opcode_table.json an instruction belongs to. -/
def Instr.row : Instr → OpcodeRow
  | .br _ _ => ⟨"BR", 0x0000#16, 0xF000#16⟩
  | .addReg _ _ _ => ⟨"ADD", 0x1000#16, 0xF020#16⟩
  | .addImm _ _ _ => ⟨"ADD", 0x1020#16, 0xF020#16⟩
  | .ld _ _ => ⟨"LD", 0x2000#16, 0xF000#16⟩
  | .st _ _ => ⟨"ST", 0x3000#16, 0xF000#16⟩
  | .jsr _ => ⟨"JSR", 0x4800#16, 0xF800#16⟩
  | .jsrr _ => ⟨"JSRR", 0x4000#16, 0xF800#16⟩
  | .andReg _ _ _ => ⟨"AND", 0x5000#16, 0xF020#16⟩
  | .andImm _ _ _ => ⟨"AND", 0x5020#16, 0xF020#16⟩
  | .ldr _ _ _ => ⟨"LDR", 0x6000#16, 0xF000#16⟩
  | .str _ _ _ => ⟨"STR", 0x7000#16, 0xF000#16⟩
  | .rti => ⟨"RTI", 0x8000#16, 0xF000#16⟩
  | .notReg _ _ => ⟨"NOT", 0x9000#16, 0xF000#16⟩
  | .ldi _ _ => ⟨"LDI", 0xA000#16, 0xF000#16⟩
  | .sti _ _ => ⟨"STI", 0xB000#16, 0xF000#16⟩
  | .jmp _ => ⟨"JMP", 0xC000#16, 0xF000#16⟩
  | .res => ⟨"RES", 0xD000#16, 0xF000#16⟩
  | .lea _ _ => ⟨"LEA", 0xE000#16, 0xF000#16⟩
  | .trap _ => ⟨"TRAP", 0xF000#16, 0xF000#16⟩

/-- The whole table, in the order of spec/opcode_table.json. -/
def opcodeTable : List OpcodeRow :=
  [Instr.row (.br 0 0), Instr.row (.addReg 0 0 0), Instr.row (.addImm 0 0 0), Instr.row (.ld 0 0), Instr.row (.st 0 0),
   Instr.row (.jsr 0), Instr.row (.jsrr 0), Instr.row (.andReg 0 0 0), Instr.row (.andImm 0 0 0), Instr.row (.ldr 0 0 0)]
  ++
  [Instr.row (.str 0 0 0), Instr.row .rti, Instr.row (.notReg 0 0), Instr.row (.ldi 0 0), Instr.row (.sti 0 0),
   Instr.row (.jmp 0), Instr.row .res, Instr.row (.lea 0 0), Instr.row (.trap 0)]

end Sys2Proof
end

