-- ==== Sys2Proof/Config.lean ====
section
/-! DEFINITION. The implementation parameters the source does not fix (00_scope.md R6), as plain data.
Every setting the spec allows can be held; the spec's defaults are `Config.default`. -/

namespace Sys2Proof

/-- `SMC_POLICY` (20_memory.md R63): what a fetch of a word written after reset does. -/
inductive SmcPolicy where
  /-- The step raises `SelfModifyingCode`. -/
  | fault
  /-- The fetch reads the current word. -/
  | coherent
deriving DecidableEq, Repr

/-- `UNSUPPORTED_POLICY` (60_exceptions.md R176): what follows the diagnostic of an unsupported path. -/
inductive UnsupportedPolicy where
  /-- The path raises its fault. -/
  | fault
  /-- The spec's `continue`: the diagnostic is the whole effect. -/
  | goOn
deriving DecidableEq, Repr

/-- `IN_MODE` (43_trap.md R155). -/
inductive InMode where
  | echo
  | noop
deriving DecidableEq, Repr

/-- `RESET_GPR` (10_state.md R38). -/
inductive ResetGpr where
  | zero
  | undefined
deriving DecidableEq, Repr

/-- `JSRR_ORDER` (42_control.md R132). -/
inductive JsrrOrder where
  | linkFirst
  | baseFirst
deriving DecidableEq, Repr

/-- The eight parameters of 00_scope.md R6. -/
structure Config where
  /-- `KBSR_ADDR`, the keyboard status word's address. -/
  kbsrAddr : Word
  /-- `KBDR_ADDR`, the keyboard data word's address. -/
  kbdrAddr : Word
  smcPolicy : SmcPolicy
  unsupportedPolicy : UnsupportedPolicy
  inMode : InMode
  /-- `HALT_MESSAGE`, the bytes HALT emits. -/
  haltMessage : List Byte
  resetGpr : ResetGpr
  jsrrOrder : JsrrOrder
deriving DecidableEq, Repr

/-- The spec's default for each parameter (00_scope.md R6). -/
def Config.default : Config where
  kbsrAddr := 0xFE00#16
  kbdrAddr := 0xFE02#16
  smcPolicy := .fault
  unsupportedPolicy := .fault
  inMode := .echo
  haltMessage := []
  resetGpr := .zero
  jsrrOrder := .linkFirst

/-- `KBDR_ADDR` is "a word address distinct from `KBSR_ADDR`" (00_scope.md R6). -/
abbrev Config.wf (c : Config) : Prop := c.kbsrAddr ≠ c.kbdrAddr

end Sys2Proof
end

