-- ==== Sys2Proof/Machine/State.lean ====
section
/-! DEFINITION. The state of the block as plain data (10_state.md R37), the reasons a step can stop, and reset. -/

namespace Sys2Proof.Machine

/-- The memory bank as byte cells in one canonical form: word `a` has its low byte at key `2 * a` and its high byte at
key `2 * a + 1` (20_memory.md R45; notes/assumptions/6.md). -/
abbrev Memory := List Host.Cell

/-- The two opcodes of `UnsupportedOpcode` (60_exceptions.md R175). -/
inductive UnsupportedOp where
  | rti
  | res
deriving DecidableEq, Repr

/-- A kind of fault with its info (60_exceptions.md R175). The first two are also the kinds of diagnostics (R176). -/
inductive FaultRecord where
  /-- Codes 1 and 2: RTI or RES executed, with the fetch address. -/
  | unsupportedOpcode (op : UnsupportedOp) (fetchAddr : Word)
  /-- Code 3: a TRAP vector outside `0x20` to `0x25`, with the fetch address. -/
  | unknownTrapVector (vect : Byte) (fetchAddr : Word)
  /-- Code 4: fetch of an address written after reset. -/
  | selfModifyingCode (fetchAddr : Word)
  /-- Code 5: PUTS or PUTSP found no terminator in 65,536 words; `start` is R0. -/
  | unterminatedString (start : Word)
  /-- Code 6: a read of a register that holds no value, with the fetch address. -/
  | unwrittenRegister (r : RegIdx) (fetchAddr : Word)
deriving DecidableEq, Repr

/-- The state of the block, of its host interface and of its ports. -/
structure State where
  /-- The implementation parameters (00_scope.md R6, R37): fixed, no step changes them (notes/assumptions/1.md). -/
  cfg : Config
  /-- `R0` to `R7` (10_state.md R20). -/
  regs : Vector Word 8
  /-- Whether each register holds a value; false only under `RESET_GPR = undefined` (R38; notes/assumptions/5.md). -/
  hasValue : Vector Bool 8
  /-- `PC` (R24): within `exec` it holds the fetch address plus 1. -/
  pc : Word
  /-- `COND`: N, Z, P in bits 2, 1, 0 (R26). -/
  cond : BitVec 3
  /-- `Mem[0..65535]`, the keyboard status and data words among them (20_memory.md R45; 10_state.md R32). -/
  mem : Memory
  /-- The running flag, cleared by HALT (R31). -/
  running : Bool
  /-- Addresses written after reset, strictly rising; used under `SMC_POLICY = fault` only (R33). -/
  written : List Nat
  /-- The sticky fault state (R34; 60_exceptions.md R178). -/
  fault : Option FaultRecord
  /-- The host has requested shutdown (70_reset_and_hazards.md R209). -/
  shutdown : Bool
  /-- The single-step gate is engaged (R208). -/
  gate : Bool
  /-- The answers the host's one input source is still to give, oldest first: no key, or a byte
  (20_memory.md R50; 43_trap.md R161; notes/assumptions/7.md). -/
  keys : List (Option Byte)
  /-- The console output stream so far, oldest first (43_trap.md R160). -/
  console : List Byte
  /-- The events of the diagnostic port so far, oldest first (60_exceptions.md R177). -/
  diags : List FaultRecord
deriving DecidableEq, Repr

/-- Why `step` takes no step. Each is a stop the spec describes; none leaves an effect. -/
inductive Fault where
  /-- Raised by `step` on a block whose sticky fault is set: "a faulted block stays faulted" (30_encoding.md R81). Safe. -/
  | alreadyFaulted (r : FaultRecord)
  /-- Raised by `step` while `running` is false: "a halted block stays halted" (R81). Safe. -/
  | halted
  /-- Raised by `step` after a shutdown request (R81; 70_reset_and_hazards.md R209). Safe. -/
  | shutDown
  /-- Raised by GETC, and by IN with `IN_MODE = echo`, when the host supplies no byte: the block is stuck
  (70_reset_and_hazards.md R213). Safe. -/
  | awaitingInput
deriving DecidableEq, Repr

/-- Why an instruction has no meaning here. -/
inductive Refusal where
  /-- Answered by `exec` for an instruction without a meaning; no arm of `exec` does. Safe. -/
  | notModelled (mnemonic : String)
deriving DecidableEq, Repr

/-- What a step, or one instruction's meaning, answers. -/
abbrev Result := Host.Outcome State Fault Refusal

/-- The state after reset with an image of origin `origin` and no words (10_state.md R38 to R42, R44). -/
def State.resetWith (cfg : Config) (origin : Word) : State where
  cfg := cfg
  regs := Vector.replicate 8 0#16
  hasValue := Vector.replicate 8 (match cfg.resetGpr with | .zero => true | .undefined => false)
  pc := origin
  cond := 0b010#3
  mem := []
  running := true
  written := []
  fault := none
  shutdown := false
  gate := false
  keys := []
  console := []
  diags := []

/-- Right after reset, with the spec's default parameters and no program. PC is the image's origin (R39); with no
image named the model takes `0x3000` (DESIGN CHOICE, notes/assumptions/2.md). -/
def State.reset : State := State.resetWith Config.default 0x3000#16

end Sys2Proof.Machine
end

