-- ==== Sys2Proof/Machine/Flags.lean ====
section
/-! DEFINITION. The condition flags: the one computation of `COND`, and its one reader (10_state.md R26 to R29). -/

namespace Sys2Proof.Machine

/-- The value `setcc(v)` writes: zero, else negative by the high bit, else positive (10_state.md R27). -/
def condOf (v : Word) : BitVec 3 :=
  if v = 0x0000#16 then 0b010#3 else if v.getLsbD 15 then 0b100#3 else 0b001#3

/-- `setcc(v)` (10_state.md R27). -/
def State.setcc (s : State) (v : Word) : State := { s with cond := condOf v }

/-- BR's test: some requested condition is set (42_control.md R130). -/
def State.condMatches (s : State) (nzp : BitVec 3) : Bool := nzp &&& s.cond != 0b000#3

end Sys2Proof.Machine
end

