-- ==== Sys2Proof/Machine/Memory.lean ====
section
/-! DEFINITION. The memory bank without the keyboard intercept: byte cells, words, and the canonical form
(20_memory.md R45 to R48). -/

namespace Sys2Proof.Machine

/-- What a byte that nothing has written reads as: "every other word ... is 0x0000" (10_state.md R41). -/
def Memory.unlisted : Byte := 0#8

/-- The canonical form: keys strictly rising and inside the bank, no cell equal to what an unlisted key reads as. -/
abbrev Memory.wf (m : Memory) : Prop :=
  m.Pairwise (fun x y => x.1 < y.1) ∧ ∀ c ∈ m, c.2 ≠ Memory.unlisted ∧ c.1 < 2 * 65536

/-- The byte at key `k`. -/
def Memory.readByte : Memory → Nat → Byte
  | [], _ => Memory.unlisted
  | (k', b) :: m, k => if k' = k then b else Memory.readByte m k

/-- Replaces the byte at key `k`, keeping the canonical form. -/
def Memory.writeByte (m : Memory) (k : Nat) (b : Byte) : Memory :=
  m.filter (fun c => c.1 < k) ++ (if b = Memory.unlisted then [] else [(k, b)]) ++ m.filter (fun c => k < c.1)

/-- One of the two bytes of a word (70_reset_and_hazards.md R216). -/
inductive Lane where
  | low
  | high
deriving DecidableEq, Repr

/-- The key of a byte of word `a`. -/
def Lane.key : Lane → Word → Nat
  | .low, a => 2 * a.toNat
  | .high, a => 2 * a.toNat + 1

/-- A word's low byte, bits 7 to 0. -/
def lowByte (v : Word) : Byte := v.extractLsb' 0 8

/-- A word's high byte, bits 15 to 8. -/
def highByte (v : Word) : Byte := v.extractLsb' 8 8

/-- `Mem[a]` (20_memory.md R45). -/
def Memory.readWord (m : Memory) (a : Word) : Word :=
  (m.readByte (Lane.key .high a) ++ m.readByte (Lane.key .low a) : BitVec (8 + 8))

/-- `Mem[a] <- v` (20_memory.md R45). -/
def Memory.writeWord (m : Memory) (a v : Word) : Memory :=
  (m.writeByte (Lane.key .low a) (lowByte v)).writeByte (Lane.key .high a) (highByte v)

end Sys2Proof.Machine
end

