-- ==== Sys2Proof/Machine/Ops.lean ====
section
/-! DEFINITION. The named operations every meaning is built from: registers, the two memory operations with the keyboard
intercept, the ports, raising a fault, entering a TRAP, and the fetch. -/

namespace Sys2Proof.Machine

/-! ### Registers -/

/-- The contents of register `r` (10_state.md R20, R21). -/
def State.reg (s : State) (r : RegIdx) : Word := s.regs[r.toNat]'(by have := r.isLt; omega)

/-- Whether register `r` holds a value (10_state.md R38). -/
def State.regHasValue (s : State) (r : RegIdx) : Bool := s.hasValue[r.toNat]'(by have := r.isLt; omega)

/-- `R[r] <- v`. No register is hardwired (10_state.md R20); a written register holds a value (R38). -/
def State.setReg (s : State) (r : RegIdx) (v : Word) : State :=
  { s with
    regs := s.regs.set r.toNat v (by have := r.isLt; omega)
    hasValue := s.hasValue.set r.toNat true (by have := r.isLt; omega) }

/-- The link register (10_state.md R22). -/
def linkReg : RegIdx := 7#3

/-- `PC <- v` (10_state.md R25). -/
def State.setPc (s : State) (v : Word) : State := { s with pc := v }

/-- `R[dr] <- v; setcc(v)`, the end of every instruction that defines a destination register (10_state.md R28). -/
def State.define (s : State) (dr : RegIdx) (v : Word) : State := (s.setReg dr v).setcc v

/-! ### Faults and diagnostics -/

/-- The address of the executing instruction. Within a handler PC is the fetch address plus 1 (10_state.md R24). -/
def State.fetchAddr (s : State) : Word := s.pc - 1#16

/-- `raise K(info)`: the sticky fault is set and the step ends; effects already made stay (60_exceptions.md R178).
This is the block's one way of taking an exception: it saves nothing, changes no mode, and goes nowhere, since "the block
takes no further step". Nothing returns from it, and RTI restores nothing (R182). -/
def State.raise (s : State) (k : FaultRecord) : State := { s with fault := some k }

/-- `diag(kind, info)`: one event on the diagnostic port, no other effect (60_exceptions.md R177). -/
def State.diag (s : State) (k : FaultRecord) : State := { s with diags := s.diags ++ [k] }

/-- `Unsupported(kind, info, fetch_address)`: the diagnostic always, then the policy (60_exceptions.md R176). -/
def State.unsupported (s : State) (k : FaultRecord) : State :=
  match s.cfg.unsupportedPolicy with
  | .fault => (s.diag k).raise k
  | .goOn => s.diag k

/-- The numeric code of a fault kind (60_exceptions.md R175). -/
def FaultRecord.code : FaultRecord → Nat
  | .unsupportedOpcode .rti _ => 1
  | .unsupportedOpcode .res _ => 2
  | .unknownTrapVector _ _ => 3
  | .selfModifyingCode _ => 4
  | .unterminatedString _ => 5
  | .unwrittenRegister _ _ => 6

/-- TRAP's entry: the return address goes to R7; no mode, mask or stack changes and no vector is read from memory
(43_trap.md R150; 60_exceptions.md R181). The return is falling through: PC already is the next address (R182). -/
def State.enterTrap (s : State) : State := s.setReg linkReg s.pc

/-! ### Ports -/

/-- `emit(b)` (43_trap.md R160). -/
def State.emit (s : State) (b : Byte) : State := { s with console := s.console ++ [b] }

/-- `key_poll()`: the host's next answer; a source with no answer left has no key (20_memory.md R50;
notes/assumptions/7.md). -/
def keyPoll : List (Option Byte) → Option Byte × List (Option Byte)
  | [] => (none, [])
  | k :: ks => (k, ks)

/-- `input()`: waits past answers of no key for the next byte, and consumes it; `none` when the host never supplies one
(43_trap.md R161; 70_reset_and_hazards.md R213). -/
def nextByte : List (Option Byte) → Option (Byte × List (Option Byte))
  | [] => none
  | none :: ks => nextByte ks
  | some c :: ks => some (c, ks)

/-! ### Memory -/

/-- `KbsrSample()`: one answer of the input source makes the status word, and the data word when a key is found; what is
left of the source, and the memory after it (20_memory.md R50). -/
def kbsrSample (cfg : Config) (keys : List (Option Byte)) (mem : Memory) : List (Option Byte) × Memory :=
  match keyPoll keys with
  | (some c, ks) => (ks, (mem.writeWord cfg.kbsrAddr 0x8000#16).writeWord cfg.kbdrAddr (c.setWidth 16))
  | (none, ks) => (ks, mem.writeWord cfg.kbsrAddr 0x0000#16)

/-- What reading address `a` does to the input source and the memory: a sample at `KBSR_ADDR`, nothing elsewhere
(20_memory.md R49, R53). -/
def readEffect (cfg : Config) (a : Word) (keys : List (Option Byte)) (mem : Memory) : List (Option Byte) × Memory :=
  if a = cfg.kbsrAddr then kbsrSample cfg keys mem else (keys, mem)

/-- The state after a read of address `a`. -/
def State.touch (s : State) (a : Word) : State :=
  { s with keys := (readEffect s.cfg a s.keys s.mem).1, mem := (readEffect s.cfg a s.keys s.mem).2 }

/-- `MemRead(a)`: the word read, and the state after the read (20_memory.md R49). -/
def State.memRead (s : State) (a : Word) : Word × State := ((s.touch a).mem.readWord a, s.touch a)

/-- `written ∪ {a}`, strictly rising (10_state.md R33). -/
def insertAddr : List Nat → Nat → List Nat
  | [], a => [a]
  | b :: bs, a => if a < b then a :: b :: bs else if a = b then b :: bs else b :: insertAddr bs a

/-- Records an address written by a store or a patch, under `SMC_POLICY = fault` only (10_state.md R33). -/
def State.noteWritten (s : State) (a : Word) : State :=
  { s with
    written := match s.cfg.smcPolicy with
      | .fault => insertAddr s.written a.toNat
      | .coherent => s.written }

/-- `MemWrite(a, v)`: plain storage at every address (20_memory.md R52). -/
def State.memWrite (s : State) (a v : Word) : State :=
  { s with mem := s.mem.writeWord a v }.noteWritten a

/-! ### The fetch -/

/-- Why the block takes no step (30_encoding.md R81). -/
def State.blocked (s : State) : Option Fault :=
  match s.fault with
  | some r => some (.alreadyFaulted r)
  | none => if s.running then (if s.shutdown then some .shutDown else none) else some .halted

/-- The fetch check of `SMC_POLICY = fault`: the word at PC was written after reset (20_memory.md R63). -/
def State.fetchForbidden (s : State) : Bool :=
  match s.cfg.smcPolicy with
  | .fault => s.written.contains s.pc.toNat
  | .coherent => false

/-- The fetch: the word at PC through `MemRead`, then `PC <- PC + 1` (30_encoding.md R80; 20_memory.md R60). -/
def State.fetch (s : State) : Word × State :=
  ((s.memRead s.pc).1, (s.memRead s.pc).2.setPc (s.pc + 1#16))

/-- Places a program word where the next fetch reads, as the loader does: it is no store, so the address does not count
as written (20_memory.md R64; notes/assumptions/13.md). -/
def State.placeWord (s : State) (v : Word) : State :=
  { s with mem := s.mem.writeWord s.pc v, written := s.written.filter (fun a => a != s.pc.toNat) }

end Sys2Proof.Machine
end

