-- ==== Sys2Proof/Machine/Operands.lean ====
section
/-! DEFINITION. The operand forms: a register read, and the three addressing modes (41_data_movement.md R117). -/

namespace Sys2Proof.Machine

/-- `R[r]` as an operand: its value goes to `k`; a register that holds no value raises `UnwrittenRegister` and the step
ends (10_state.md R38; 60_exceptions.md R175). -/
def State.readReg (s : State) (r : RegIdx) (k : Word → Result) : Result :=
  if s.regHasValue r then k (s.reg r) else .next (s.raise (.unwrittenRegister r s.fetchAddr))

/-- PC-relative: `PC + off`, PC already incremented (30_encoding.md R74). -/
def State.pcRel (s : State) (off : Word) : Word := s.pc + off

/-- Base plus offset: `R[BaseR] + off` (30_encoding.md R74), for the base's value. -/
def baseOff (base off : Word) : Word := base + off

/-- Memory-indirect: the pointer read at `PC + off`, with the state after that read (41_data_movement.md R114, R115). -/
def State.indirect (s : State) (off : Word) : Word × State := s.memRead (s.pcRel off)

end Sys2Proof.Machine
end

