-- ==== Sys2Proof/Machine/Control.lean ====
section
/-! DEFINITION. The branch, jump and subroutine instructions and the two unsupported opcodes (42_control.md). -/

namespace Sys2Proof.Machine

/-- BR (42_control.md R130). -/
def execBr (nzp : BitVec 3) (off9 : Word) (s : State) : Result :=
  .next (if s.condMatches nzp then s.setPc (s.pcRel off9) else s)

/-- JSR (42_control.md R131). -/
def execJsr (off11 : Word) (s : State) : Result :=
  .next ((s.setReg linkReg s.pc).setPc (s.pcRel off11))

/-- JSRR, in the order `JSRR_ORDER` names (42_control.md R132). -/
def execJsrr (baseR : RegIdx) (s : State) : Result :=
  match s.cfg.jsrrOrder with
  | .linkFirst => (s.setReg linkReg s.pc).readReg baseR fun t => .next ((s.setReg linkReg s.pc).setPc t)
  | .baseFirst => s.readReg baseR fun t => .next ((s.setReg linkReg s.pc).setPc t)

/-- RTI: the unsupported path (42_control.md R133). -/
def execRti (s : State) : Result :=
  .next (s.unsupported (.unsupportedOpcode .rti s.fetchAddr))

/-- JMP, and RET as JMP R7 (42_control.md R134). -/
def execJmp (baseR : RegIdx) (s : State) : Result :=
  s.readReg baseR fun t => .next (s.setPc t)

/-- RES: the unsupported path (42_control.md R135). -/
def execRes (s : State) : Result :=
  .next (s.unsupported (.unsupportedOpcode .res s.fetchAddr))

end Sys2Proof.Machine
end

