-- ==== Sys2Proof/Machine/DataMove.lean ====
section
/-! DEFINITION. The load, store and address instructions (41_data_movement.md). -/

namespace Sys2Proof.Machine

/-- `v <- MemRead(ea); R[dr] <- v; setcc(v)`, the end of every load. -/
def State.loadInto (s : State) (dr : RegIdx) (ea : Word) : State :=
  (s.memRead ea).2.define dr (s.memRead ea).1

/-- LD (41_data_movement.md R110). -/
def execLd (dr : RegIdx) (off9 : Word) (s : State) : Result :=
  .next (s.loadInto dr (s.pcRel off9))

/-- ST (41_data_movement.md R111). -/
def execSt (sr : RegIdx) (off9 : Word) (s : State) : Result :=
  s.readReg sr fun v => .next (s.memWrite (s.pcRel off9) v)

/-- LDR (41_data_movement.md R112). -/
def execLdr (dr baseR : RegIdx) (off6 : Word) (s : State) : Result :=
  s.readReg baseR fun b => .next (s.loadInto dr (baseOff b off6))

/-- STR: the base is read for the address, then the source (41_data_movement.md R113). -/
def execStr (sr baseR : RegIdx) (off6 : Word) (s : State) : Result :=
  s.readReg baseR fun b => s.readReg sr fun v => .next (s.memWrite (baseOff b off6) v)

/-- LDI: the pointer read, then the data read in the state after it (41_data_movement.md R114). -/
def execLdi (dr : RegIdx) (off9 : Word) (s : State) : Result :=
  .next ((s.indirect off9).2.loadInto dr (s.indirect off9).1)

/-- STI: the pointer read, then the source register, then the store (41_data_movement.md R115). -/
def execSti (sr : RegIdx) (off9 : Word) (s : State) : Result :=
  (s.indirect off9).2.readReg sr fun v => .next ((s.indirect off9).2.memWrite (s.indirect off9).1 v)

/-- LEA: no memory access; the flags are set (41_data_movement.md R116). -/
def execLea (dr : RegIdx) (off9 : Word) (s : State) : Result :=
  .next (s.define dr (s.pcRel off9))

end Sys2Proof.Machine
end

