-- ==== Sys2Proof/Machine/Operate.lean ====
section
/-! DEFINITION. The operate instructions (40_operate.md). -/

namespace Sys2Proof.Machine

/-- ADD, register form (40_operate.md R100). -/
def execAddReg (dr sr1 sr2 : RegIdx) (s : State) : Result :=
  s.readReg sr1 fun a => s.readReg sr2 fun b => .next (s.define dr (a + b))

/-- ADD, immediate form (40_operate.md R101). -/
def execAddImm (dr sr1 : RegIdx) (imm5 : Word) (s : State) : Result :=
  s.readReg sr1 fun a => .next (s.define dr (a + imm5))

/-- AND, register form (40_operate.md R102). -/
def execAndReg (dr sr1 sr2 : RegIdx) (s : State) : Result :=
  s.readReg sr1 fun a => s.readReg sr2 fun b => .next (s.define dr (a &&& b))

/-- AND, immediate form (40_operate.md R103). -/
def execAndImm (dr sr1 : RegIdx) (imm5 : Word) (s : State) : Result :=
  s.readReg sr1 fun a => .next (s.define dr (a &&& imm5))

/-- NOT (40_operate.md R104). -/
def execNot (dr sr : RegIdx) (s : State) : Result :=
  s.readReg sr fun a => .next (s.define dr (~~~a))

end Sys2Proof.Machine
end

