-- ==== Sys2Proof/Machine/Trap.lean ====
section
/-! DEFINITION. TRAP and its built-in routines (43_trap.md). A routine starts in the state after `State.enterTrap`. -/

namespace Sys2Proof.Machine

/-- What `input()` gives the routine `k`: the byte and the state with the byte consumed; with no byte the step does not
complete (43_trap.md R161; 70_reset_and_hazards.md R213). -/
def State.withInput (s : State) (k : Byte → State → Result) : Result :=
  match nextByte s.keys with
  | some (c, ks) => k c { s with keys := ks }
  | none => .fault .awaitingInput

/-- GETC, vector `0x20` (43_trap.md R152). -/
def trapGetc (s : State) : Result :=
  s.withInput fun c s => .next (s.define 0#3 (c.setWidth 16))

/-- OUT, vector `0x21` (43_trap.md R153). -/
def trapOut (s : State) : Result :=
  s.readReg 0#3 fun v => .next (s.emit (lowByte v))

/-- The loop of PUTS: at most `n` words from `a` on; the Bool says a zero word was found (43_trap.md R154). -/
def putsLoop : Nat → Word → State → Bool × State
  | 0, _, s => (false, s)
  | n + 1, a, s =>
    if (s.memRead a).1 = 0x0000#16 then (true, (s.memRead a).2)
    else putsLoop n (a + 1#16) ((s.memRead a).2.emit (lowByte (s.memRead a).1))

/-- The loop of PUTSP: low byte, then high byte, of at most `n` words from `a` on; the Bool says a zero byte was found
(43_trap.md R156). -/
def putspLoop : Nat → Word → State → Bool × State
  | 0, _, s => (false, s)
  | n + 1, a, s =>
    if lowByte (s.memRead a).1 = 0x00#8 then (true, (s.memRead a).2)
    else if highByte (s.memRead a).1 = 0x00#8 then (true, (s.memRead a).2.emit (lowByte (s.memRead a).1))
    else putspLoop n (a + 1#16)
      (((s.memRead a).2.emit (lowByte (s.memRead a).1)).emit (highByte (s.memRead a).1))

/-- The end of a string routine: with no terminator in 65,536 words, `UnterminatedString` of the start (R154, R156). -/
def stringEnd (start : Word) : Bool × State → Result
  | (true, s) => .next s
  | (false, s) => .next (s.raise (.unterminatedString start))

/-- PUTS, vector `0x22` (43_trap.md R154). -/
def trapPuts (s : State) : Result :=
  s.readReg 0#3 fun a => stringEnd a (putsLoop 65536 a s)

/-- IN, vector `0x23`, by `IN_MODE`: the echo comes before R0 is written (43_trap.md R155). -/
def trapIn (s : State) : Result :=
  match s.cfg.inMode with
  | .echo => s.withInput fun c s => .next ((s.emit c).define 0#3 (c.setWidth 16))
  | .noop => .next s

/-- PUTSP, vector `0x24` (43_trap.md R156). -/
def trapPutsp (s : State) : Result :=
  s.readReg 0#3 fun a => stringEnd a (putspLoop 65536 a s)

/-- HALT, vector `0x25`: the message, then the running flag (43_trap.md R157). -/
def trapHalt (s : State) : Result :=
  .next { s.cfg.haltMessage.foldl State.emit s with running := false }

/-- Any other vector: the unsupported path, the link already written (43_trap.md R158). -/
def trapUnknown (vect : Byte) (s : State) : Result :=
  .next (s.unsupported (.unknownTrapVector vect s.fetchAddr))

/-- The routine a vector selects (43_trap.md R151). -/
def trapRoutine (vect : Byte) : State → Result :=
  match vect.toNat with
  | 0x20 => trapGetc
  | 0x21 => trapOut
  | 0x22 => trapPuts
  | 0x23 => trapIn
  | 0x24 => trapPutsp
  | 0x25 => trapHalt
  | _ => trapUnknown vect

/-- TRAP: the link is written for every vector, then the routine runs inside the step (43_trap.md R150, R159). -/
def execTrap (vect : Byte) (s : State) : Result := trapRoutine vect s.enterTrap

end Sys2Proof.Machine
end

