-- ==== Sys2Proof/Machine/Step.lean ====
section
/-! DEFINITION. One instruction step (30_encoding.md R80, R81). -/

namespace Sys2Proof.Machine

/-- One instruction step: no step when R81 forbids it; the self-modifying-code check; fetch; decode; execute. -/
def step (s : State) : Host.Outcome State Fault Refusal :=
  match s.blocked with
  | some f => .fault f
  | none =>
    if s.fetchForbidden then .next (s.raise (.selfModifyingCode s.pc))
    else exec (decode s.fetch.1) s.fetch.2

/-- `s` with the instruction word `w` placed at PC, where the next step fetches (notes/assumptions/13.md). -/
def State.withFetchWord (s : State) (nbits w : Nat) : State :=
  s.placeWord (BitVec.ofNat 16 (w % 2 ^ nbits))

end Sys2Proof.Machine
end

