-- ==== Sys2Proof/Machine/HostPort.lean ====
section
/-! DEFINITION. What the host does between two steps, and how it runs the block
(10_state.md R36; 70_reset_and_hazards.md R206 to R209, R216). -/

namespace Sys2Proof.Machine

/-- What the host may do between two steps (70_reset_and_hazards.md R206). Inspecting changes nothing and has functions
of its own below. -/
inductive HostAction where
  /-- Replace one byte of a word (R216). -/
  | patch (a : Word) (lane : Lane) (b : Byte)
  /-- Engage the single-step gate (R208). -/
  | engageGate
  /-- Release it. -/
  | releaseGate
  /-- Request shutdown (R209). -/
  | requestShutdown
  /-- Say what the input source will answer next, after what it was already to answer (notes/assumptions/7.md). -/
  | supplyKeys (ks : List (Option Byte))
deriving DecidableEq, Repr

/-- `patch(a, lane, b)`: an ordinary memory write of one byte, no keyboard sample (70_reset_and_hazards.md R216). -/
def State.patch (s : State) (a : Word) (lane : Lane) (b : Byte) : State :=
  { s with mem := s.mem.writeByte (lane.key a) b }.noteWritten a

/-- A host action's effect (70_reset_and_hazards.md R206). It is the same in every state: on a halted, faulted or shut-down
block too, where no step follows any more and the spec grants inspection but is silent on the other actions (DESIGN CHOICE,
notes/assumptions/24.md). -/
def State.host (s : State) : HostAction → State
  | .patch a lane b => s.patch a lane b
  | .engageGate => { s with gate := true }
  | .releaseGate => { s with gate := false }
  | .requestShutdown => { s with shutdown := true }
  | .supplyKeys ks => { s with keys := s.keys ++ ks }

/-- Inspect `Mem[a]`: no sample, even at `KBSR_ADDR` (20_memory.md R65). -/
def State.inspectWord (s : State) (a : Word) : Word := s.mem.readWord a

/-- Inspect a general register; `none` when it holds no value (10_state.md R36, R38). -/
def State.inspectReg (s : State) (r : RegIdx) : Option Word := if s.regHasValue r then some (s.reg r) else none

/-- Inspect PC, COND and the running flag (10_state.md R36). -/
def State.inspectControl (s : State) : Word × BitVec 3 × Bool := (s.pc, s.cond, s.running)

/-- One invocation of the execution loop that the host lets go on for at most `budget` instructions: with the gate
engaged it executes at most one and returns control (70_reset_and_hazards.md R207, R208). -/
def invoke : Nat → State → Result
  | 0, s => .next s
  | budget + 1, s =>
    match step s with
    | .next t => if t.gate then .next t else invoke budget t
    | .fault f => .fault f
    | .refused r => .refused r

/-- `n` invocations one after another, the host resuming the block each time (70_reset_and_hazards.md R208). -/
def resume (budget : Nat) : Nat → State → Result
  | 0, s => .next s
  | n + 1, s =>
    match invoke budget s with
    | .next t => resume budget n t
    | .fault f => .fault f
    | .refused r => .refused r

end Sys2Proof.Machine
end

