-- ==== Sys2Proof/Machine/Loader.lean ====
section
/-! DEFINITION. Reset with an image: parsing, load errors, placement (70_reset_and_hazards.md R200 to R204). -/

namespace Sys2Proof.Machine

/-- Why a load aborts before the block starts (70_reset_and_hazards.md R204). -/
inductive LoadError where
  /-- The image file is missing or unreadable. -/
  | unreadable
  /-- Fewer than 2 bytes. -/
  | truncatedHeader
  /-- An odd byte count (R202). -/
  | oddByteCount
  /-- `origin + N > 65536` (R202). -/
  | tooLarge
deriving DecidableEq, Repr

/-- The big-endian words of a byte stream; `none` when a byte is left over (70_reset_and_hazards.md R201). -/
def bigEndianWords : List Byte → Option (List Word)
  | [] => some []
  | [_] => none
  | hi :: lo :: rest =>
    match bigEndianWords rest with
    | some ws => some ((hi ++ lo : BitVec (8 + 8)) :: ws)
    | none => none

/-- An image: its origin and its words (R201). -/
structure Image where
  origin : Word
  words : List Word
deriving DecidableEq, Repr

/-- Reads an image file, `none` standing for a file that cannot be read (R201, R202, R204). -/
def parseImage : Option (List Byte) → Except LoadError Image
  | none => .error .unreadable
  | some bytes =>
    if bytes.length < 2 then .error .truncatedHeader
    else
      match bigEndianWords bytes with
      | none => .error .oddByteCount
      | some [] => .error .truncatedHeader
      | some (origin :: words) =>
        if origin.toNat + words.length ≤ 65536 then .ok ⟨origin, words⟩ else .error .tooLarge

/-- Places words from address `a` up; these writes are no stores (R202). -/
def Memory.placeWords (m : Memory) (a : Word) : List Word → Memory
  | [] => m
  | w :: ws => Memory.placeWords (m.writeWord a w) (a + 1#16) ws

/-- The state in which the block starts stepping: reset, the image in memory, PC at the origin (R200). -/
def launch (cfg : Config) (file : Option (List Byte)) : Except LoadError State :=
  match parseImage file with
  | .error e => .error e
  | .ok img =>
    .ok { State.resetWith cfg img.origin with
      mem := (State.resetWith cfg img.origin).mem.placeWords img.origin img.words }

end Sys2Proof.Machine
end

