-- ==== Sys2Proof/Safety.lean ====
section
/-! DEFINITION. Runs and their ends, which states a launch can reach, the invariant of those states, and a safe launch
(70_reset_and_hazards.md R200, R206, R210). -/

namespace Sys2Proof.Machine

/-- The five ends of a run (70_reset_and_hazards.md R210). -/
inductive RunEnd where
  /-- `running = false` with no fault: the only normal end, and the only final state. -/
  | halted
  /-- The host requested shutdown. -/
  | shutDown
  | faulted (r : FaultRecord)
  /-- The block waits forever in `input()`. -/
  | stuck
  /-- The block takes infinitely many steps. -/
  | diverging
deriving DecidableEq, Repr

/-- The end a state shows for good. A state that steps shows none, and neither does one that waits in `input()`: the host
may still supply a byte. -/
def State.ended (s : State) : Option RunEnd :=
  match step s with
  | .fault (.alreadyFaulted r) => some (.faulted r)
  | .fault .halted => some .halted
  | .fault .shutDown => some .shutDown
  | .fault .awaitingInput => none
  | .next _ => none
  | .refused _ => none

/-- What the host does before each of the block's turns (70_reset_and_hazards.md R206). -/
abbrev Schedule := Nat → List HostAction

/-- One turn: the block steps if it can, and stays as it is if it cannot. -/
def State.turn (s : State) : State :=
  match step s with
  | .next t => t
  | .fault _ => s
  | .refused _ => s

/-- The state of a run from `s` at the start of turn `n`, once the host has done what `h` says for that turn. -/
def runAt (h : Schedule) (s : State) : Nat → State
  | 0 => (h 0).foldl State.host s
  | n + 1 => (h (n + 1)).foldl State.host (runAt h s n).turn

/-- How the run from `s` under `h` ends: some turn shows an end for good, or from some turn on the block waits in
`input()` at every turn, or it steps again and again (70_reset_and_hazards.md R210). -/
def RunEnds (h : Schedule) (s : State) : RunEnd → Prop
  | .halted => ∃ n, step (runAt h s n) = .fault .halted
  | .shutDown => ∃ n, step (runAt h s n) = .fault .shutDown
  | .faulted r => ∃ n, step (runAt h s n) = .fault (.alreadyFaulted r)
  | .stuck => ∃ n, ∀ m, n ≤ m → step (runAt h s m) = .fault .awaitingInput
  | .diverging => ∀ n, ∃ m, n ≤ m ∧ ∃ t, step (runAt h s m) = .next t

/-- The states a launch of an image under `cfg` reaches by steps and host actions (R200, R206, R207). That the host may act
on a halted, faulted or shut-down block too is the model's choice (DESIGN CHOICE, notes/assumptions/24.md). -/
inductive Reachable (cfg : Config) : State → Prop where
  | launched (file : Option (List Byte)) (s : State) : launch cfg file = .ok s → Reachable cfg s
  | stepped (s t : State) : Reachable cfg s → step s = .next t → Reachable cfg t
  | hosted (s : State) (h : HostAction) : Reachable cfg s → Reachable cfg (s.host h)

/-- `COND` is one-hot (10_state.md R26). -/
def OneHot (c : BitVec 3) : Prop := c = 0b100#3 ∨ c = 0b010#3 ∨ c = 0b001#3

/-- A fault record is one its policy allows: kinds 1 to 3 under `UNSUPPORTED_POLICY = fault`, 4 under
`SMC_POLICY = fault`, 6 under `RESET_GPR = undefined` (60_exceptions.md R175). -/
def FaultRecord.allowedBy (cfg : Config) : FaultRecord → Prop
  | .unsupportedOpcode _ _ => cfg.unsupportedPolicy = .fault
  | .unknownTrapVector _ _ => cfg.unsupportedPolicy = .fault
  | .selfModifyingCode _ => cfg.smcPolicy = .fault
  | .unterminatedString _ => True
  | .unwrittenRegister _ _ => cfg.resetGpr = .undefined

/-- What holds of every reachable state. -/
structure State.Inv (s : State) : Prop where
  /-- Memory is in its canonical form. -/
  mem_wf : s.mem.wf
  /-- Exactly one condition is set (10_state.md R26). -/
  cond_oneHot : OneHot s.cond
  /-- `written` is a set of addresses, strictly rising (10_state.md R33). -/
  written_rising : s.written.Pairwise (· < ·)
  written_bound : ∀ a ∈ s.written, a < 65536
  /-- `written` exists only under `SMC_POLICY = fault` (10_state.md R33). -/
  written_policy : s.cfg.smcPolicy = .coherent → s.written = []
  /-- Under `RESET_GPR = zero` every register holds a value (10_state.md R38). -/
  regs_valued : s.cfg.resetGpr = .zero → ∀ r, s.regHasValue r = true
  /-- The fault record is one the parameters allow (60_exceptions.md R175). -/
  fault_allowed : ∀ r, s.fault = some r → r.allowedBy s.cfg
  /-- A faulted block is not halted: a run ends one way (70_reset_and_hazards.md R210). -/
  fault_running : s.fault ≠ none → s.running = true

/-- A launch none of whose runs ends in a fault, whatever the host does but patch (60_exceptions.md R178;
70_reset_and_hazards.md R210; 92_eei_decisions.md D30). -/
def SafeLaunch (cfg : Config) (file : Option (List Byte)) : Prop :=
  ∀ s h r, launch cfg file = .ok s → (∀ n a l b, HostAction.patch a l b ∉ h n) → ¬ RunEnds h s (.faulted r)

end Sys2Proof.Machine
end

