-- ==== Sys2Proof/Certificates/Slice0/Obligations.lean ====
section
/-! DEFINITION. The statements for the provers, in the order of OBLIGATIONS.json, with the words they are written in.
A docstring names the rule a statement formalises, or, where the spec marks the point as its own decision or inference,
the decision. -/

namespace Sys2Proof.Machine

/-! ### Words of the statements -/

/-- Every byte of memory outside the words of `ws` reads in `t` as in `s`. -/
def SameBytesOutside (s t : State) (ws : List Word) : Prop :=
  ∀ k : Nat, (∀ a ∈ ws, ∀ l : Lane, k ≠ l.key a) → t.mem.readByte k = s.mem.readByte k

/-- Every general register outside `rs` holds in `t` what it holds in `s`. -/
def SameRegsOutside (s t : State) (rs : List RegIdx) : Prop :=
  ∀ r : RegIdx, r ∉ rs → t.reg r = s.reg r ∧ t.regHasValue r = s.regHasValue r

/-- The parameters, the running flag and the host's two inputs are as before. -/
def SameControl (s t : State) : Prop :=
  t.cfg = s.cfg ∧ t.running = s.running ∧ t.shutdown = s.shutdown ∧ t.gate = s.gate

/-- The general registers an instruction reads as operands, from the pseudocode of files 40 to 43. -/
def operandRegs : Instr → List RegIdx
  | .addReg _ sr1 sr2 | .andReg _ sr1 sr2 => [sr1, sr2]
  | .addImm _ sr1 _ | .andImm _ sr1 _ => [sr1]
  | .notReg _ sr | .st sr _ | .sti sr _ => [sr]
  | .ldr _ baseR _ | .jmp baseR | .jsrr baseR => [baseR]
  | .str sr baseR _ => [baseR, sr]
  | .trap v => if v = 0x21#8 ∨ v = 0x22#8 ∨ v = 0x24#8 then [0#3] else []
  | .br _ _ | .ld _ _ | .ldi _ _ | .lea _ _ | .jsr _ | .rti | .res => []

/-- The fault state is as before, or it is `UnwrittenRegister` of an operand register of `i` that held no value
(10_state.md R38). -/
def SameFaultOrUnwritten (i : Instr) (s t : State) : Prop :=
  t.fault = s.fault ∨
    ∃ r ∈ operandRegs i, s.regHasValue r = false ∧ t.fault = some (.unwrittenRegister r s.fetchAddr)

/-- The words a list of reads may rewrite: the two keyboard words when one of them is at `KBSR_ADDR`
(20_memory.md R50), none otherwise. -/
def sampledWords (s : State) (reads : List Word) : List Word :=
  if s.cfg.kbsrAddr ∈ reads then [s.cfg.kbsrAddr, s.cfg.kbdrAddr] else []

/-- `R[dr] <- v; setcc(v)`, no fault, PC at the next instruction. -/
def Defines (s t : State) (dr : RegIdx) (v : Word) : Prop :=
  t.reg dr = v ∧ t.regHasValue dr = true ∧ t.cond = condOf v ∧ t.pc = s.pc ∧ t.fault = s.fault

/-- The block may take a step (30_encoding.md R81). -/
def CanStep (s : State) : Prop := s.fault = none ∧ s.running = true ∧ s.shutdown = false

/-- The next fetch is not stopped by `SMC_POLICY = fault` (20_memory.md R63). -/
def FetchAllowed (s : State) : Prop := s.cfg.smcPolicy = .coherent ∨ s.pc.toNat ∉ s.written

/-- The general registers an instruction writes: the table of 10_state.md R23. -/
def writtenRegs (cfg : Config) : Instr → List RegIdx
  | .addReg dr _ _ | .addImm dr _ _ | .andReg dr _ _ | .andImm dr _ _ | .notReg dr _ => [dr]
  | .ld dr _ | .ldr dr _ _ | .ldi dr _ | .lea dr _ => [dr]
  | .jsr _ | .jsrr _ => [linkReg]
  | .trap v => if v = 0x20#8 ∨ (v = 0x23#8 ∧ cfg.inMode = .echo) then [linkReg, 0#3] else [linkReg]
  | .br _ _ | .st _ _ | .str _ _ _ | .sti _ _ | .jmp _ | .rti | .res => []

/-- The instructions that write `COND`: the list of 10_state.md R28. -/
def writesCond (cfg : Config) : Instr → Bool
  | .addReg _ _ _ | .addImm _ _ _ | .andReg _ _ _ | .andImm _ _ _ | .notReg _ _ => true
  | .ld _ _ | .ldr _ _ _ | .ldi _ _ | .lea _ _ => true
  | .trap v => v == 0x20#8 || (v == 0x23#8 && cfg.inMode == .echo)
  | .br _ _ | .st _ _ | .str _ _ _ | .sti _ _ | .jsr _ | .jsrr _ | .jmp _ | .rti | .res => false

/-- The bytes of an image of origin `origin` and words `words` (70_reset_and_hazards.md R201): big-endian. -/
def imageBytes (origin : Word) (words : List Word) : List Byte :=
  (origin :: words).flatMap fun w => [highByte w, lowByte w]

/-- `n` successive `MemRead`s from address `a` on: the words read and the state after them (20_memory.md R56). -/
def readSeq (s : State) (a : Word) : Nat → List Word × State
  | 0 => ([], s)
  | n + 1 =>
    ((s.memRead a).1 :: (readSeq (s.memRead a).2 (a + 1#16) n).1, (readSeq (s.memRead a).2 (a + 1#16) n).2)

/-- An outcome with the next state changed by `f`. -/
def mapNext (f : State → State) : Result → Result
  | .next t => .next (f t)
  | .fault r => .fault r
  | .refused r => .refused r

/-- The state with the step gate set to `b`. -/
def State.withGate (s : State) (b : Bool) : State := { s with gate := b }

/-- The state with `d` put before its diagnostic log. -/
def State.withOlderDiags (s : State) (d : List FaultRecord) : State := { s with diags := d ++ s.diags }

end Sys2Proof.Machine

open Sys2Proof Sys2Proof.Machine

/-! ### Reset and loading -/

/-- What reset leaves, for any parameters and origin: 10_state.md R38 [D21], R39, R40 [D22], R41 [D23], R42 [D24]. The
values are the spec's own decisions, but for two choices of the model: that `State.reset` stands at origin 0x3000 (log 2), and
that a register which holds no value, under `RESET_GPR = undefined`, has the word 0x0000, which no instruction can read
(log 5). -/
def Obligations.ResetLeavesTheStatedValues : Prop :=
  (∀ (cfg : Config) (origin : Word),
    (∀ r, (State.resetWith cfg origin).reg r = 0x0000#16) ∧
    (∀ r, (State.resetWith cfg origin).regHasValue r = decide (cfg.resetGpr = .zero)) ∧
    (State.resetWith cfg origin).pc = origin ∧
    (State.resetWith cfg origin).cond = 0b010#3 ∧
    (∀ a, (State.resetWith cfg origin).mem.readWord a = 0x0000#16) ∧
    (State.resetWith cfg origin).running = true ∧
    (State.resetWith cfg origin).written = [] ∧
    (State.resetWith cfg origin).fault = none) ∧
  State.reset = State.resetWith Config.default 0x3000#16

/-- 70_reset_and_hazards.md R201, R203 and 10_state.md R39: word `i` of a big-endian image lies at `origin + i`, and PC
is the origin. -/
def Obligations.LaunchPlacesEveryImageWord : Prop :=
  ∀ (cfg : Config) (origin : Word) (words : List Word), origin.toNat + words.length ≤ 65536 →
    ∃ s, launch cfg (some (imageBytes origin words)) = .ok s ∧ s.pc = origin ∧
      ∀ (i : Nat) (h : i < words.length), s.mem.readWord (origin + BitVec.ofNat 16 i) = words[i]

/-- 10_state.md R41 [D23], 20_memory.md R64 [D12], 70_reset_and_hazards.md R202 [D25]: outside the image memory is zero
after a launch, and nothing counts as written. -/
def Obligations.LaunchLeavesTheRestZero : Prop :=
  ∀ (cfg : Config) (origin : Word) (words : List Word) (s : State),
    launch cfg (some (imageBytes origin words)) = .ok s →
      s.written = [] ∧ ∀ a : Word, (∀ i < words.length, a ≠ origin + BitVec.ofNat 16 i) → s.mem.readWord a = 0x0000#16

/-- 70_reset_and_hazards.md R202, R204 [D25]: the images that cannot be read, that have no whole header, that have an odd
byte count or that do not fit are refused, and all others, the even byte streams that fit, are admitted. The refusals of
odd and too large images are the spec's decision; which name an image with two errors gets is the model's choice (log 18). -/
def Obligations.LaunchRefusesExactlyBadImages : Prop :=
  ∀ cfg : Config,
    launch cfg none = .error .unreadable ∧
    (∀ bytes : List Byte, bytes.length < 2 → launch cfg (some bytes) = .error .truncatedHeader) ∧
    (∀ bytes : List Byte, 2 ≤ bytes.length → bytes.length % 2 = 1 → launch cfg (some bytes) = .error .oddByteCount) ∧
    (∀ (origin : Word) (words : List Word), 65536 < origin.toNat + words.length →
      launch cfg (some (imageBytes origin words)) = .error .tooLarge) ∧
    (∀ (origin : Word) (words : List Word), origin.toNat + words.length ≤ 65536 →
      ∃ s, launch cfg (some (imageBytes origin words)) = .ok s) ∧
    ∀ bytes : List Byte, 2 ≤ bytes.length → bytes.length % 2 = 0 → ∃ origin words, bytes = imageBytes origin words

/-! ### Encoding -/

/-- 00_scope.md R9: sign extension by the source's contract, for every width and every value of that width, and what the
decoder passes to it; with the source's property (95_test_vectors.md S1) that truncating gives the value back and the bits
above are copies of its sign. -/
def Obligations.SignExtensionKeepsTheValue : Prop :=
  (∀ (n : Nat) (v : Word), 1 ≤ n → n ≤ 16 → v.toNat < 2 ^ n →
    (v.getLsbD (n - 1) = true → sext n v = v ||| (0xFFFF#16 <<< n)) ∧
    (v.getLsbD (n - 1) = false → sext n v = v) ∧
    (sext n v).toNat % 2 ^ n = v.toNat ∧
    ∀ j, n ≤ j → j < 16 → (sext n v).getLsbD j = v.getLsbD (n - 1)) ∧
  ∀ w : Word,
    ((fields w).imm5v = sext 5 (bits w 0 5) ∧ (bits w 0 5).toNat < 2 ^ 5) ∧
    ((fields w).off6v = sext 6 (bits w 0 6) ∧ (bits w 0 6).toNat < 2 ^ 6) ∧
    ((fields w).off9v = sext 9 (bits w 0 9) ∧ (bits w 0 9).toNat < 2 ^ 9) ∧
    ((fields w).off11v = sext 11 (bits w 0 11) ∧ (bits w 0 11).toNat < 2 ^ 11)

/-- Words written out from the formats of 30_encoding.md (positions are D2), one for each format. -/
def Obligations.SampleWordsDecode : Prop :=
  decode 0b0000010000000101#16 = .br 0b010#3 5#16 ∧
  decode 0b0001010000000001#16 = .addReg 2#3 0#3 1#3 ∧
  decode 0b0001001001111111#16 = .addImm 1#3 1#3 0xFFFF#16 ∧
  decode 0b1010100111111110#16 = .ldi 4#3 0xFFFE#16 ∧
  decode 0b0100110000000000#16 = .jsr 0xFC00#16 ∧
  decode 0b0100000010000000#16 = .jsrr 2#3 ∧
  decode 0b0110010011111111#16 = .ldr 2#3 3#3 0xFFFF#16 ∧
  decode 0b1001001000111111#16 = .notReg 1#3 0#3 ∧
  decode 0b1100000111000000#16 = .jmp 7#3 ∧
  decode 0b1101111111111111#16 = .res ∧
  decode 0b1111000000100101#16 = .trap 0x25#8

/-- The decoder reads back every well-formed instruction from its word (30_encoding.md R73, R77 [D2]). -/
def Obligations.DecodeEncodeRoundTrip : Prop :=
  ∀ i : Instr, i.wf = true → decode (encode i) = i

/-- 30_encoding.md R78: every word matches exactly one row of the table; the decoder picks the instruction of that row,
and that instruction is well-formed. -/
def Obligations.DecodeFollowsTheOpcodeTable : Prop :=
  ∀ w : Word, opcodeTable.filter (·.covers w) = [(decode w).row] ∧ (decode w).wf = true

/-- 30_encoding.md R76 [D5]: words that differ in don't-care bits only decode to the same instruction. -/
def Obligations.DontCareBitsAreIgnored : Prop :=
  ∀ w x : Word,
    ((w &&& 0xF020#16 = 0x1000#16 ∨ w &&& 0xF020#16 = 0x5000#16) → (w ^^^ x) &&& ~~~0x0018#16 = 0 → decode x = decode w) ∧
    (w &&& 0xF800#16 = 0x4000#16 → (w ^^^ x) &&& ~~~0x063F#16 = 0 → decode x = decode w) ∧
    (w &&& 0xF000#16 = 0x9000#16 → (w ^^^ x) &&& ~~~0x003F#16 = 0 → decode x = decode w) ∧
    (w &&& 0xF000#16 = 0xC000#16 → (w ^^^ x) &&& ~~~0x0E3F#16 = 0 → decode x = decode w) ∧
    (w &&& 0xF000#16 = 0xF000#16 → (w ^^^ x) &&& ~~~0x0F00#16 = 0 → decode x = decode w) ∧
    ((w &&& 0xF000#16 = 0x8000#16 ∨ w &&& 0xF000#16 = 0xD000#16) → (w ^^^ x) &&& ~~~0x0FFF#16 = 0 → decode x = decode w)

/-! ### The step -/

/-- 30_encoding.md R80: the fetch check, the fetch through `MemRead`, the increment before the handler, the decoder and
the handler. -/
def Obligations.StepRunsTheDecodedInstruction : Prop :=
  ∀ s : State, CanStep s →
    (FetchAllowed s →
      step s = exec (decode (s.memRead s.pc).1) ((s.memRead s.pc).2.setPc (s.pc + 1#16))) ∧
    (¬ FetchAllowed s → step s = .next (s.raise (.selfModifyingCode s.pc)))

/-- 30_encoding.md R81: a step happens only when `running` is true, `fault` is none and no shutdown has been requested. That
the stop says which, under these names and in the order fault, halt, shutdown, is the model's choice (log 10). -/
def Obligations.NoStepWhenStopped : Prop :=
  ∀ s : State,
    (∀ t, step s = .next t → CanStep s) ∧
    (∀ r, s.fault = some r → step s = .fault (.alreadyFaulted r)) ∧
    (s.fault = none → s.running = false → step s = .fault .halted) ∧
    (s.fault = none → s.running = true → s.shutdown = true → step s = .fault .shutDown)

/-- The model's own loading of one word (log 13): a word placed at PC is what the next step runs. At `KBSR_ADDR` the
fetch samples the keyboard instead (20_memory.md R60 [D11]). -/
def Obligations.PlacedWordIsRunNext : Prop :=
  ∀ (s : State) (w : Nat), CanStep s → s.pc ≠ s.cfg.kbsrAddr → w < 2 ^ 16 →
    step (s.withFetchWord 16 w) =
      exec (decode (BitVec.ofNat 16 w)) ((s.withFetchWord 16 w).setPc (s.pc + 1#16)) ∧
    SameBytesOutside s (s.withFetchWord 16 w) [s.pc]

/-- 70_reset_and_hazards.md R213: GETC, and IN with echo, wait when the host supplies no byte. That every other execution
completes follows from the instruction rules together (60_exceptions.md R187). That the source is one list of answers is the
model's choice (log 7), and the answer `awaitingInput` its inference (log 8). -/
def Obligations.OnlyInputRoutinesWait : Prop :=
  ∀ (i : Instr) (s : State),
    ((i = .trap 0x20#8 ∨ (i = .trap 0x23#8 ∧ s.cfg.inMode = .echo)) ∧ nextByte s.keys = none →
      exec i s = .fault .awaitingInput) ∧
    (¬ ((i = .trap 0x20#8 ∨ (i = .trap 0x23#8 ∧ s.cfg.inMode = .echo)) ∧ nextByte s.keys = none) →
      ∃ t, exec i s = .next t)

/-! ### Memory and the keyboard -/

/-- 20_memory.md R52 [D9], R45, R46: a write stores one word and changes no other byte; under `SMC_POLICY = fault` it
records the address. -/
def Obligations.WriteStoresOneWord : Prop :=
  ∀ (s : State) (a v : Word),
    (s.memWrite a v).mem.readWord a = v ∧
    SameBytesOutside s (s.memWrite a v) [a] ∧
    (s.cfg.smcPolicy = .fault → ∀ b, b ∈ (s.memWrite a v).written ↔ b = a.toNat ∨ b ∈ s.written) ∧
    (s.cfg.smcPolicy = .coherent → (s.memWrite a v).written = s.written)

/-- 20_memory.md R49 [D6], R51 [D8], R53 [D10], R54: a read anywhere but at `KBSR_ADDR`, `KBDR_ADDR` included, gives the
stored word and changes nothing. -/
def Obligations.PlainReadChangesNothing : Prop :=
  ∀ (s : State) (a : Word), a ≠ s.cfg.kbsrAddr → s.memRead a = (s.mem.readWord a, s)

/-- 20_memory.md R50 [D7]: a read of the status word takes one answer of the input source and makes the pair from it, in
memory as well as in the word returned. That the source is one list of answers is the model's choice (log 7). -/
def Obligations.StatusReadSamplesTheKeyboard : Prop :=
  ∀ s : State, s.cfg.wf →
    (∀ c ks, s.keys = some c :: ks →
      (s.memRead s.cfg.kbsrAddr).1 = 0x8000#16 ∧
      (s.memRead s.cfg.kbsrAddr).2.mem.readWord s.cfg.kbsrAddr = 0x8000#16 ∧
      (s.memRead s.cfg.kbsrAddr).2.mem.readWord s.cfg.kbdrAddr = c.setWidth 16 ∧
      (s.memRead s.cfg.kbsrAddr).2.keys = ks) ∧
    ((s.keys = [] ∨ ∃ ks, s.keys = none :: ks) →
      (s.memRead s.cfg.kbsrAddr).1 = 0x0000#16 ∧
      (s.memRead s.cfg.kbsrAddr).2.mem.readWord s.cfg.kbsrAddr = 0x0000#16 ∧
      (s.memRead s.cfg.kbsrAddr).2.mem.readWord s.cfg.kbdrAddr = s.mem.readWord s.cfg.kbdrAddr ∧
      (s.memRead s.cfg.kbsrAddr).2.keys = s.keys.tail) ∧
    SameBytesOutside s (s.memRead s.cfg.kbsrAddr).2 [s.cfg.kbsrAddr, s.cfg.kbdrAddr] ∧
    (s.memRead s.cfg.kbsrAddr).2.written = s.written

/-! ### Operate instructions -/

/-- 10_state.md R27. -/
def Obligations.SetccFollowsTheSign : Prop :=
  ∀ (s : State) (v : Word),
    (v = 0x0000#16 → (s.setcc v).cond = 0b010#3) ∧
    (v ≠ 0x0000#16 → v.getLsbD 15 = true → (s.setcc v).cond = 0b100#3) ∧
    (v ≠ 0x0000#16 → v.getLsbD 15 = false → (s.setcc v).cond = 0b001#3)

/-- 40_operate.md R100. -/
def Obligations.AddRegisterResult : Prop :=
  (∀ w : Word, w &&& 0xF020#16 = 0x1000#16 →
    decode w = .addReg (w.extractLsb' 9 3) (w.extractLsb' 6 3) (w.extractLsb' 0 3)) ∧
  ∀ (dr sr1 sr2 : RegIdx) (s : State), s.regHasValue sr1 = true → s.regHasValue sr2 = true →
    ∃ t, exec (.addReg dr sr1 sr2) s = .next t ∧ Defines s t dr (s.reg sr1 + s.reg sr2)

/-- 40_operate.md R101. -/
def Obligations.AddImmediateResult : Prop :=
  (∀ w : Word, w &&& 0xF020#16 = 0x1020#16 →
    decode w = .addImm (w.extractLsb' 9 3) (w.extractLsb' 6 3) (sext 5 (bits w 0 5))) ∧
  ∀ (dr sr1 : RegIdx) (imm5 : Word) (s : State), s.regHasValue sr1 = true →
    ∃ t, exec (.addImm dr sr1 imm5) s = .next t ∧ Defines s t dr (s.reg sr1 + imm5)

/-- 40_operate.md R102. -/
def Obligations.AndRegisterResult : Prop :=
  (∀ w : Word, w &&& 0xF020#16 = 0x5000#16 →
    decode w = .andReg (w.extractLsb' 9 3) (w.extractLsb' 6 3) (w.extractLsb' 0 3)) ∧
  ∀ (dr sr1 sr2 : RegIdx) (s : State), s.regHasValue sr1 = true → s.regHasValue sr2 = true →
    ∃ t, exec (.andReg dr sr1 sr2) s = .next t ∧ Defines s t dr (s.reg sr1 &&& s.reg sr2)

/-- 40_operate.md R103. -/
def Obligations.AndImmediateResult : Prop :=
  (∀ w : Word, w &&& 0xF020#16 = 0x5020#16 →
    decode w = .andImm (w.extractLsb' 9 3) (w.extractLsb' 6 3) (sext 5 (bits w 0 5))) ∧
  ∀ (dr sr1 : RegIdx) (imm5 : Word) (s : State), s.regHasValue sr1 = true →
    ∃ t, exec (.andImm dr sr1 imm5) s = .next t ∧ Defines s t dr (s.reg sr1 &&& imm5)

/-- 40_operate.md R104. -/
def Obligations.NotResult : Prop :=
  (∀ w : Word, w &&& 0xF000#16 = 0x9000#16 →
    decode w = .notReg (w.extractLsb' 9 3) (w.extractLsb' 6 3)) ∧
  ∀ (dr sr : RegIdx) (s : State), s.regHasValue sr = true →
    ∃ t, exec (.notReg dr sr) s = .next t ∧ Defines s t dr (0xFFFF#16 - s.reg sr)

/-- 40_operate.md R106 (derived there): the immediate form gives what the register form gives when `SR2` holds the
immediate. -/
def Obligations.ModeBitEquivalence : Prop :=
  ∀ (dr sr1 sr2 : RegIdx) (imm5 : Word) (s : State), s.regHasValue sr2 = true → s.reg sr2 = imm5 →
    exec (.addImm dr sr1 imm5) s = exec (.addReg dr sr1 sr2) s ∧
    exec (.andImm dr sr1 imm5) s = exec (.andReg dr sr1 sr2) s

/-- The frame of the instructions that only define a register: ADD, AND, NOT (R100 to R104) and LEA (R116). -/
def Obligations.OperateFrame : Prop :=
  ∀ (dr sr1 sr2 : RegIdx) (imm : Word) (s t : State) (i : Instr),
    i ∈ [.addReg dr sr1 sr2, .addImm dr sr1 imm, .andReg dr sr1 sr2, .andImm dr sr1 imm, .notReg dr sr1, .lea dr imm] →
    exec i s = .next t →
      SameRegsOutside s t [dr] ∧ SameBytesOutside s t [] ∧ SameControl s t ∧ t.pc = s.pc ∧ t.written = s.written ∧
      t.keys = s.keys ∧ t.console = s.console ∧ t.diags = s.diags ∧ SameFaultOrUnwritten i s t

/-! ### Data movement -/

/-- 41_data_movement.md R110. -/
def Obligations.LoadResult : Prop :=
  (∀ w : Word, w &&& 0xF000#16 = 0x2000#16 → decode w = .ld (w.extractLsb' 9 3) (sext 9 (bits w 0 9))) ∧
  ∀ (dr : RegIdx) (off9 : Word) (s : State),
    ∃ t, exec (.ld dr off9) s = .next t ∧ Defines s t dr (s.memRead (s.pc + off9)).1 ∧
      t.mem = (s.memRead (s.pc + off9)).2.mem ∧ t.keys = (s.memRead (s.pc + off9)).2.keys

/-- 41_data_movement.md R111. -/
def Obligations.StoreResult : Prop :=
  (∀ w : Word, w &&& 0xF000#16 = 0x3000#16 → decode w = .st (w.extractLsb' 9 3) (sext 9 (bits w 0 9))) ∧
  ∀ (sr : RegIdx) (off9 : Word) (s : State), s.regHasValue sr = true →
    ∃ t, exec (.st sr off9) s = .next t ∧ t = s.memWrite (s.pc + off9) (s.reg sr) ∧
      t.mem.readWord (s.pc + off9) = s.reg sr ∧ t.cond = s.cond ∧ t.pc = s.pc ∧ t.fault = s.fault

/-- 41_data_movement.md R112. -/
def Obligations.LoadRegisterResult : Prop :=
  (∀ w : Word, w &&& 0xF000#16 = 0x6000#16 →
    decode w = .ldr (w.extractLsb' 9 3) (w.extractLsb' 6 3) (sext 6 (bits w 0 6))) ∧
  ∀ (dr baseR : RegIdx) (off6 : Word) (s : State), s.regHasValue baseR = true →
    ∃ t, exec (.ldr dr baseR off6) s = .next t ∧ Defines s t dr (s.memRead (s.reg baseR + off6)).1 ∧
      t.mem = (s.memRead (s.reg baseR + off6)).2.mem ∧ t.keys = (s.memRead (s.reg baseR + off6)).2.keys

/-- 41_data_movement.md R113. -/
def Obligations.StoreRegisterResult : Prop :=
  (∀ w : Word, w &&& 0xF000#16 = 0x7000#16 →
    decode w = .str (w.extractLsb' 9 3) (w.extractLsb' 6 3) (sext 6 (bits w 0 6))) ∧
  ∀ (sr baseR : RegIdx) (off6 : Word) (s : State), s.regHasValue baseR = true → s.regHasValue sr = true →
    ∃ t, exec (.str sr baseR off6) s = .next t ∧ t = s.memWrite (s.reg baseR + off6) (s.reg sr) ∧
      t.mem.readWord (s.reg baseR + off6) = s.reg sr ∧ t.cond = s.cond ∧ t.pc = s.pc ∧ t.fault = s.fault

/-- 41_data_movement.md R114: both reads through the intercept, the second in the state the first leaves. -/
def Obligations.LoadIndirectResult : Prop :=
  (∀ w : Word, w &&& 0xF000#16 = 0xA000#16 → decode w = .ldi (w.extractLsb' 9 3) (sext 9 (bits w 0 9))) ∧
  ∀ (dr : RegIdx) (off9 : Word) (s : State),
    ∃ t, exec (.ldi dr off9) s = .next t ∧
      Defines s t dr ((s.memRead (s.pc + off9)).2.memRead (s.memRead (s.pc + off9)).1).1 ∧
      t.mem = ((s.memRead (s.pc + off9)).2.memRead (s.memRead (s.pc + off9)).1).2.mem ∧
      t.keys = ((s.memRead (s.pc + off9)).2.memRead (s.memRead (s.pc + off9)).1).2.keys

/-- 41_data_movement.md R115: the pointer through the intercept, then the store. -/
def Obligations.StoreIndirectResult : Prop :=
  (∀ w : Word, w &&& 0xF000#16 = 0xB000#16 → decode w = .sti (w.extractLsb' 9 3) (sext 9 (bits w 0 9))) ∧
  ∀ (sr : RegIdx) (off9 : Word) (s : State), s.regHasValue sr = true →
    ∃ t, exec (.sti sr off9) s = .next t ∧
      t = (s.memRead (s.pc + off9)).2.memWrite (s.memRead (s.pc + off9)).1 (s.reg sr) ∧
      t.mem.readWord (s.memRead (s.pc + off9)).1 = s.reg sr ∧ t.cond = s.cond ∧ t.pc = s.pc ∧ t.fault = s.fault

/-- 41_data_movement.md R116. -/
def Obligations.LoadAddressResult : Prop :=
  (∀ w : Word, w &&& 0xF000#16 = 0xE000#16 → decode w = .lea (w.extractLsb' 9 3) (sext 9 (bits w 0 9))) ∧
  ∀ (dr : RegIdx) (off9 : Word) (s : State),
    ∃ t, exec (.lea dr off9) s = .next t ∧ Defines s t dr (s.pc + off9) ∧ t.mem = s.mem ∧ t.keys = s.keys

/-- The frame of the loads LD, LDR, LDI (R110, R112, R114; R50 for what a read of `KBSR_ADDR` rewrites). -/
def Obligations.LoadFrame : Prop :=
  ∀ (dr baseR : RegIdx) (off : Word) (s t : State) (i : Instr) (reads : List Word),
    (i, reads) ∈ [(.ld dr off, [s.pcRel off]), (.ldr dr baseR off, [baseOff (s.reg baseR) off]),
      (.ldi dr off, [s.pcRel off, (s.indirect off).1])] →
    exec i s = .next t →
      SameRegsOutside s t [dr] ∧ SameBytesOutside s t (sampledWords s reads) ∧ SameControl s t ∧ t.pc = s.pc ∧
      t.written = s.written ∧ (s.cfg.kbsrAddr ∉ reads → t.keys = s.keys) ∧ t.console = s.console ∧ t.diags = s.diags ∧
      SameFaultOrUnwritten i s t

/-- The frame of the stores ST, STR, STI (R111, R113, R115): `ea` is the address stored to, `reads` the pointer read. -/
def Obligations.StoreFrame : Prop :=
  ∀ (sr baseR : RegIdx) (off : Word) (s t : State) (i : Instr) (ea : Word) (reads : List Word),
    (i, ea, reads) ∈ [(.st sr off, s.pcRel off, []), (.str sr baseR off, baseOff (s.reg baseR) off, []),
      (.sti sr off, (s.indirect off).1, [s.pcRel off])] →
    exec i s = .next t →
      SameRegsOutside s t [] ∧ SameBytesOutside s t (ea :: sampledWords s reads) ∧ SameControl s t ∧ t.pc = s.pc ∧
      t.cond = s.cond ∧ (t.written = s.written ∨ t.written = (s.noteWritten ea).written) ∧
      (s.cfg.kbsrAddr ∉ reads → t.keys = s.keys) ∧ t.console = s.console ∧ t.diags = s.diags ∧ SameFaultOrUnwritten i s t

/-! ### Control transfer -/

/-- 42_control.md R130. -/
def Obligations.BranchResult : Prop :=
  (∀ w : Word, w &&& 0xF000#16 = 0x0000#16 → decode w = .br (w.extractLsb' 9 3) (sext 9 (bits w 0 9))) ∧
  ∀ (nzp : BitVec 3) (off9 : Word) (s : State),
    ∃ t, exec (.br nzp off9) s = .next t ∧ t.cond = s.cond ∧ t.fault = s.fault ∧
      ((nzp &&& s.cond) ≠ 0b000#3 → t.pc = s.pc + off9) ∧ ((nzp &&& s.cond) = 0b000#3 → t.pc = s.pc)

/-- 42_control.md R131. -/
def Obligations.JumpToSubroutineResult : Prop :=
  (∀ w : Word, w &&& 0xF800#16 = 0x4800#16 → decode w = .jsr (sext 11 (bits w 0 11))) ∧
  ∀ (off11 : Word) (s : State),
    ∃ t, exec (.jsr off11) s = .next t ∧ t.reg 7#3 = s.pc ∧ t.pc = s.pc + off11 ∧ t.cond = s.cond ∧ t.fault = s.fault

/-- 42_control.md R132 [D31], both settings of `JSRR_ORDER`. -/
def Obligations.JumpToSubroutineRegisterResult : Prop :=
  (∀ w : Word, w &&& 0xF800#16 = 0x4000#16 → decode w = .jsrr (w.extractLsb' 6 3)) ∧
  ∀ (baseR : RegIdx) (s : State),
    (s.cfg.jsrrOrder = .linkFirst → (baseR = 7#3 ∨ s.regHasValue baseR = true) →
      ∃ t, exec (.jsrr baseR) s = .next t ∧ t.reg 7#3 = s.pc ∧ t.cond = s.cond ∧ t.fault = s.fault ∧
        t.pc = (if baseR = 7#3 then s.pc else s.reg baseR)) ∧
    (s.cfg.jsrrOrder = .baseFirst → s.regHasValue baseR = true →
      ∃ t, exec (.jsrr baseR) s = .next t ∧ t.reg 7#3 = s.pc ∧ t.cond = s.cond ∧ t.fault = s.fault ∧
        t.pc = s.reg baseR)

/-- 42_control.md R134. -/
def Obligations.JumpResult : Prop :=
  (∀ w : Word, w &&& 0xF000#16 = 0xC000#16 → decode w = .jmp (w.extractLsb' 6 3)) ∧
  ∀ (baseR : RegIdx) (s : State), s.regHasValue baseR = true →
    ∃ t, exec (.jmp baseR) s = .next t ∧ t.pc = s.reg baseR ∧ t.cond = s.cond ∧ t.fault = s.fault

/-- 42_control.md R133, R135, 60_exceptions.md R176 [D20], both settings of `UNSUPPORTED_POLICY`: the diagnostic always;
the fault under `fault`; PC at the next instruction. With the numeric codes of all six fault kinds (60_exceptions.md R175
[D38]). -/
def Obligations.UnsupportedOpcodeResult : Prop :=
  (∀ (a : Word) (v : Byte) (r : RegIdx),
    (FaultRecord.unsupportedOpcode .rti a).code = 1 ∧ (FaultRecord.unsupportedOpcode .res a).code = 2 ∧
    (FaultRecord.unknownTrapVector v a).code = 3 ∧ (FaultRecord.selfModifyingCode a).code = 4 ∧
    (FaultRecord.unterminatedString a).code = 5 ∧ (FaultRecord.unwrittenRegister r a).code = 6) ∧
  ∀ (s : State) (i : Instr) (op : UnsupportedOp), (i, op) ∈ [(Instr.rti, .rti), (Instr.res, .res)] →
    ∃ t, exec i s = .next t ∧ t.pc = s.pc ∧ t.diags = s.diags ++ [.unsupportedOpcode op (s.pc - 1#16)] ∧
      (s.cfg.unsupportedPolicy = .fault → t.fault = some (.unsupportedOpcode op (s.pc - 1#16))) ∧
      (s.cfg.unsupportedPolicy = .goOn → t.fault = s.fault)

/-- The frame of BR, JSR, JSRR, JMP, RTI and RES (R130 to R135). -/
def Obligations.ControlFrame : Prop :=
  ∀ (nzp : BitVec 3) (baseR : RegIdx) (off : Word) (s t : State) (i : Instr) (rs : List RegIdx),
    (i, rs) ∈ [(.br nzp off, []), (.jmp baseR, []), (.rti, []), (.res, []), (.jsr off, [linkReg]),
      (.jsrr baseR, [linkReg])] →
    exec i s = .next t →
      SameRegsOutside s t rs ∧ SameBytesOutside s t [] ∧ SameControl s t ∧ t.cond = s.cond ∧ t.written = s.written ∧
      t.keys = s.keys ∧ t.console = s.console ∧ (i ≠ .rti → i ≠ .res → t.diags = s.diags ∧ SameFaultOrUnwritten i s t)

/-! ### TRAP -/

/-- 43_trap.md R152 [D15], R161 [D26]: GETC reads the next byte of the input source into R0. That the source is one list, in
which `input()` passes over and drops the answers of no key before the byte, is the model's choice (log 7). -/
def Obligations.GetcResult : Prop :=
  ∀ (s : State) (c : Byte) (ks : List (Option Byte)), nextByte s.keys = some (c, ks) →
    ∃ t, exec (.trap 0x20#8) s = .next t ∧ Defines s t 0#3 (c.setWidth 16) ∧ t.reg 7#3 = s.pc ∧ t.keys = ks ∧
      t.console = s.console ∧ SameBytesOutside s t []

/-- 43_trap.md R153 [D27]: OUT emits the low byte of R0, and beside the console and the link register changes nothing. -/
def Obligations.OutResult : Prop :=
  ∀ s : State, s.regHasValue 0#3 = true →
    ∃ t, exec (.trap 0x21#8) s = .next t ∧ t.console = s.console ++ [(s.reg 0#3).extractLsb' 0 8] ∧
      t.reg 7#3 = s.pc ∧ t.reg 0#3 = s.reg 0#3 ∧ t.pc = s.pc ∧ t.cond = s.cond ∧ t.fault = s.fault ∧
      SameRegsOutside s t [linkReg] ∧ SameBytesOutside s t [] ∧ SameControl s t ∧ t.written = s.written ∧
      t.keys = s.keys ∧ t.diags = s.diags

/-- 43_trap.md R154 [D18, D35]: PUTS reads words from R0 on, each through the intercept, and emits the low byte of each
word before the first zero word `z`. -/
def Obligations.PutsEmitsTheString : Prop :=
  ∀ (s : State) (ws : List Word), s.regHasValue 0#3 = true → ws.length < 65536 →
    (readSeq s.enterTrap (s.reg 0#3) (ws.length + 1)).1 = ws ++ [0x0000#16] → (∀ w ∈ ws, w ≠ 0x0000#16) →
    ∃ t, exec (.trap 0x22#8) s = .next t ∧ t.console = s.console ++ ws.map lowByte ∧ t.reg 7#3 = s.pc ∧
      t.reg 0#3 = s.reg 0#3 ∧ t.pc = s.pc ∧ t.cond = s.cond ∧ t.fault = s.fault ∧
      t.mem = (readSeq s.enterTrap (s.reg 0#3) (ws.length + 1)).2.mem ∧
      t.keys = (readSeq s.enterTrap (s.reg 0#3) (ws.length + 1)).2.keys

/-- 43_trap.md R155 [D16], both settings of `IN_MODE`. The byte is that of `input()` as in `GetcResult`: one list, answers of
no key before the byte dropped, which is the model's choice (log 7). -/
def Obligations.InResult : Prop :=
  ∀ s : State,
    (s.cfg.inMode = .echo → ∀ c ks, nextByte s.keys = some (c, ks) →
      ∃ t, exec (.trap 0x23#8) s = .next t ∧ Defines s t 0#3 (c.setWidth 16) ∧ t.reg 7#3 = s.pc ∧ t.keys = ks ∧
        t.console = s.console ++ [c] ∧ SameBytesOutside s t []) ∧
    (s.cfg.inMode = .noop →
      ∃ t, exec (.trap 0x23#8) s = .next t ∧ t.reg 7#3 = s.pc ∧ SameRegsOutside s t [linkReg] ∧ t.pc = s.pc ∧
        t.cond = s.cond ∧ t.fault = s.fault ∧ t.keys = s.keys ∧ t.console = s.console)

/-- 43_trap.md R156 [D17]: PUTSP emits low byte then high byte of each word, up to the first zero byte: `ws` are words of
two characters each, and the word `z` after them ends the string in its low byte or in its high byte. -/
def Obligations.PutspEmitsTheString : Prop :=
  ∀ (s : State) (ws : List Word) (z : Word), s.regHasValue 0#3 = true → ws.length < 65536 →
    (readSeq s.enterTrap (s.reg 0#3) (ws.length + 1)).1 = ws ++ [z] →
    (∀ w ∈ ws, lowByte w ≠ 0x00#8 ∧ highByte w ≠ 0x00#8) → (lowByte z = 0x00#8 ∨ highByte z = 0x00#8) →
    ∃ t, exec (.trap 0x24#8) s = .next t ∧
      t.console = s.console ++ ws.flatMap (fun w => [lowByte w, highByte w]) ++
        (if lowByte z = 0x00#8 then [] else [lowByte z]) ∧
      t.reg 7#3 = s.pc ∧ t.reg 0#3 = s.reg 0#3 ∧ t.pc = s.pc ∧ t.cond = s.cond ∧ t.fault = s.fault ∧
      t.mem = (readSeq s.enterTrap (s.reg 0#3) (ws.length + 1)).2.mem ∧
      t.keys = (readSeq s.enterTrap (s.reg 0#3) (ws.length + 1)).2.keys

/-- 43_trap.md R154 [D18], 60_exceptions.md R178 [D38]: for PUTS, 65,536 words with no zero word raise
`UnterminatedString` of R0, and the bytes stay emitted. PUTSP always finds its end: 65,536 words take in `KBSR_ADDR`, whose
read has a zero low byte (R156, 20_memory.md R50). -/
def Obligations.StringRoutinesWithoutTerminator : Prop :=
  ∀ s : State, s.regHasValue 0#3 = true →
    ((∀ w ∈ (readSeq s.enterTrap (s.reg 0#3) 65536).1, w ≠ 0x0000#16) →
      ∃ t, exec (.trap 0x22#8) s = .next t ∧ t.fault = some (.unterminatedString (s.reg 0#3)) ∧
        t.console = s.console ++ (readSeq s.enterTrap (s.reg 0#3) 65536).1.map lowByte ∧
        t.reg 7#3 = s.pc ∧ t.pc = s.pc ∧ t.cond = s.cond) ∧
    ∃ t, exec (.trap 0x24#8) s = .next t ∧ t.fault = s.fault

/-- 43_trap.md R157 [D19], 70_reset_and_hazards.md R215 [D19]: HALT emits the message, clears `running`, and no further
step is taken. -/
def Obligations.HaltEndsTheRun : Prop :=
  ∀ s : State,
    ∃ t, exec (.trap 0x25#8) s = .next t ∧ t.running = false ∧ t.console = s.console ++ s.cfg.haltMessage ∧
      t.reg 7#3 = s.pc ∧ t.pc = s.pc ∧ t.cond = s.cond ∧ t.fault = s.fault ∧
      (s.fault = none → step t = .fault .halted)

/-- 43_trap.md R158 [D20], R150 [D14], both settings of `UNSUPPORTED_POLICY`: R7 is written, the diagnostic emitted, then
the policy. -/
def Obligations.UnknownVectorResult : Prop :=
  ∀ (s : State) (v : Byte), (v.toNat < 0x20 ∨ 0x25 < v.toNat) →
    ∃ t, exec (.trap v) s = .next t ∧ t.reg 7#3 = s.pc ∧ t.pc = s.pc ∧ t.cond = s.cond ∧
      t.diags = s.diags ++ [.unknownTrapVector v (s.pc - 1#16)] ∧
      (s.cfg.unsupportedPolicy = .fault → t.fault = some (.unknownTrapVector v (s.pc - 1#16))) ∧
      (s.cfg.unsupportedPolicy = .goOn → t.fault = s.fault)

/-- The frame of TRAP, every vector (43_trap.md R150 to R158): PUTS and PUTSP may sample the keyboard, no other routine
touches memory. -/
def Obligations.TrapFrame : Prop :=
  (∀ w : Word, w &&& 0xF000#16 = 0xF000#16 → decode w = .trap (w.extractLsb' 0 8)) ∧
  ∀ (v : Byte) (s t : State), exec (.trap v) s = .next t →
    SameRegsOutside s t (writtenRegs s.cfg (.trap v)) ∧
    SameBytesOutside s t (if v = 0x22#8 ∨ v = 0x24#8 then [s.cfg.kbsrAddr, s.cfg.kbdrAddr] else []) ∧
    t.cfg = s.cfg ∧ t.shutdown = s.shutdown ∧ t.gate = s.gate ∧ t.pc = s.pc ∧ t.written = s.written ∧
    (writesCond s.cfg (.trap v) = false → t.cond = s.cond) ∧
    (v ≠ 0x25#8 → t.running = s.running) ∧
    (v.toNat < 0x20 ∨ 0x25 < v.toNat ∨ t.diags = s.diags) ∧
    (v = 0x20#8 ∨ v = 0x22#8 ∨ v = 0x23#8 ∨ v = 0x24#8 ∨ t.keys = s.keys) ∧
    (t.fault = s.fault ∨
      (t.fault = some (.unwrittenRegister 0#3 s.fetchAddr) ∧ s.regHasValue 0#3 = false ∧
        (v = 0x21#8 ∨ v = 0x22#8 ∨ v = 0x24#8)) ∨
      (t.fault = some (.unterminatedString (s.reg 0#3)) ∧ (v = 0x22#8 ∨ v = 0x24#8)) ∨
      (t.fault = some (.unknownTrapVector v s.fetchAddr) ∧ s.cfg.unsupportedPolicy = .fault ∧
        (v.toNat < 0x20 ∨ 0x25 < v.toNat)))

/-! ### Registers without a value -/

/-- 10_state.md R38 [D21], 60_exceptions.md R178 [D38]: the first operand register that holds no value raises
`UnwrittenRegister`, and the effects before that read stay. Which register is first where one line of pseudocode reads two is
the model's inference, left to right and the address before the stored value (DEDUCED, log 17). -/
def Obligations.UnwrittenRegisterRaises : Prop :=
  ∀ (s : State) (dr r q : RegIdx) (off : Word), s.regHasValue r = false →
    (∀ i ∈ [Instr.addReg dr r q, .addImm dr r off, .andReg dr r q, .andImm dr r off, .notReg dr r, .ldr dr r off,
        .st r off, .str q r off, .jmp r],
      exec i s = .next (s.raise (.unwrittenRegister r (s.pc - 1#16)))) ∧
    (s.regHasValue q = true → ∀ i ∈ [Instr.addReg dr q r, .andReg dr q r, .str r q off],
      exec i s = .next (s.raise (.unwrittenRegister r (s.pc - 1#16)))) ∧
    exec (.sti r off) s = .next ((s.memRead (s.pc + off)).2.raise (.unwrittenRegister r (s.pc - 1#16))) ∧
    (s.cfg.jsrrOrder = .baseFirst → exec (.jsrr r) s = .next (s.raise (.unwrittenRegister r (s.pc - 1#16)))) ∧
    (s.cfg.jsrrOrder = .linkFirst → r ≠ 7#3 →
      exec (.jsrr r) s = .next ((s.setReg 7#3 s.pc).raise (.unwrittenRegister r (s.pc - 1#16)))) ∧
    (r = 0#3 → ∀ v ∈ [0x21#8, 0x22#8, 0x24#8],
      exec (.trap v) s = .next ((s.setReg 7#3 s.pc).raise (.unwrittenRegister 0#3 (s.pc - 1#16))))

/-! ### Whole-machine rules -/

/-- 10_state.md R23 (derived there): no instruction writes a register the table does not list for it. -/
def Obligations.OnlyListedRegistersAreWritten : Prop :=
  ∀ (i : Instr) (s t : State), exec i s = .next t → SameRegsOutside s t (writtenRegs s.cfg i)

/-- 10_state.md R28 [D15]: no instruction outside the list changes `COND`. -/
def Obligations.OnlyListedInstructionsWriteCond : Prop :=
  ∀ (i : Instr) (s t : State), exec i s = .next t → writesCond s.cfg i = false → t.cond = s.cond

/-- 10_state.md R31: only HALT clears `running`, and no step sets it. -/
def Obligations.OnlyHaltClearsRunning : Prop :=
  ∀ (i : Instr) (s t : State), exec i s = .next t →
    (t.running = s.running ∨ (i = .trap 0x25#8 ∧ t.running = false)) ∧
    (i = .trap 0x25#8 → t.running = false)

/-- 43_trap.md R160: the console stream only grows, and only OUT, PUTS, IN with echo, PUTSP and HALT add to it. -/
def Obligations.OnlyOutputRoutinesEmit : Prop :=
  (∀ (s : State) (b : Byte), s.emit b = { s with console := s.console ++ [b] }) ∧
  ∀ (i : Instr) (s t : State), exec i s = .next t →
    ∃ bs, t.console = s.console ++ bs ∧
      (bs ≠ [] → ∃ v, i = .trap v ∧
        (v = 0x21#8 ∨ v = 0x22#8 ∨ (v = 0x23#8 ∧ s.cfg.inMode = .echo) ∨ v = 0x24#8 ∨ v = 0x25#8))

/-- 60_exceptions.md R177: a diagnostic is one event and nothing else, and no instruction can read the events: with any
older events put before them, every instruction and every step answers the same, those events before its own. -/
def Obligations.DiagnosticsAreInvisible : Prop :=
  (∀ (s : State) (k : FaultRecord), s.diag k = { s with diags := s.diags ++ [k] }) ∧
  (∀ (i : Instr) (s : State) (d : List FaultRecord),
    exec i (s.withOlderDiags d) = mapNext (fun t => t.withOlderDiags d) (exec i s)) ∧
  ∀ (s : State) (d : List FaultRecord),
    step (s.withOlderDiags d) = mapNext (fun t => t.withOlderDiags d) (step s)

/-- 70_reset_and_hazards.md R208: with the gate engaged an invocation executes at most one instruction; `n` gated
invocations and `n` ungated steps give the same result but for the gate itself. -/
def Obligations.StepGateChangesNoResult : Prop :=
  (∀ (s : State) (budget : Nat), s.gate = true → invoke (budget + 1) s = step s) ∧
  (∀ (s : State) (b : Bool), step (s.withGate b) = mapNext (fun t => t.withGate b) (step s)) ∧
  ∀ (s : State) (budget n : Nat),
    resume (budget + 1) n (s.withGate true) = mapNext (fun t => t.withGate true) (invoke n (s.withGate false))

/-- 70_reset_and_hazards.md R206, R208, R209: no host action changes a register, `COND`, PC, `running`, `fault`, the
parameters or the two output streams; only a patch changes memory, and it adds exactly its address to `written` under
`SMC_POLICY = fault`; the gate, the shutdown request and the input source change by their own actions only; after a shutdown
request no step follows, whatever the host does later. That input is supplied by an action is the model's choice (log 7), and
that the host may act on a halted, faulted or shut-down block is too (log 24). -/
def Obligations.HostActionsKeepTheMachineState : Prop :=
  ∀ (s : State) (h : HostAction),
    SameRegsOutside s (s.host h) [] ∧ (s.host h).cond = s.cond ∧ (s.host h).pc = s.pc ∧
    (s.host h).running = s.running ∧ (s.host h).fault = s.fault ∧ (s.host h).cfg = s.cfg ∧
    (s.host h).console = s.console ∧ (s.host h).diags = s.diags ∧
    ((∀ a l b, h ≠ .patch a l b) → (s.host h).written = s.written ∧ (s.host h).mem = s.mem) ∧
    (∀ a l b, h = .patch a l b →
      (s.cfg.smcPolicy = .fault → ∀ x, x ∈ (s.host h).written ↔ x = a.toNat ∨ x ∈ s.written) ∧
      (s.cfg.smcPolicy = .coherent → (s.host h).written = s.written)) ∧
    (s.host h).gate = (if h = .engageGate then true else if h = .releaseGate then false else s.gate) ∧
    (s.host h).shutdown = (if h = .requestShutdown then true else s.shutdown) ∧
    (∀ ks, (s.host (.supplyKeys ks)).keys = s.keys ++ ks) ∧
    ((∀ ks, h ≠ .supplyKeys ks) → (s.host h).keys = s.keys) ∧
    ∀ (hs : List HostAction) (t : State), step (hs.foldl State.host (s.host .requestShutdown)) ≠ .next t

/-- 70_reset_and_hazards.md R216 [D30]: a patch replaces one byte of one word, records the address as a store does, and
does not sample the keyboard. -/
def Obligations.PatchReplacesOneByte : Prop :=
  ∀ (s : State) (a : Word) (b : Byte),
    (s.host (.patch a .low b)).mem.readWord a = (s.mem.readWord a &&& 0xFF00#16) ||| b.setWidth 16 ∧
    (s.host (.patch a .high b)).mem.readWord a = (s.mem.readWord a &&& 0x00FF#16) ||| (b.setWidth 16 <<< 8) ∧
    ∀ l, SameBytesOutside s (s.host (.patch a l b)) [a] ∧ (s.host (.patch a l b)).keys = s.keys ∧
      (s.cfg.smcPolicy = .fault → a.toNat ∈ (s.host (.patch a l b)).written)

/-! ### The invariant -/

/-- The invariant holds at reset, and right after any launch (10_state.md R26, R33, R38 to R42). -/
def Obligations.InvariantHoldsAtLaunch : Prop :=
  State.Inv State.reset ∧ ∀ (cfg : Config) (file : Option (List Byte)) (s : State), launch cfg file = .ok s → State.Inv s

/-- Every step keeps the invariant: memory canonical, `COND` one-hot (R26), `written` a set used under its policy only
(R33), registers valued under `RESET_GPR = zero` (R38), the fault one the parameters allow (R175), no fault on a halted
block (R210). -/
def Obligations.StepKeepsTheInvariant : Prop :=
  ∀ s t : State, State.Inv s → step s = .next t → State.Inv t

/-- Every host action keeps the invariant and the parameters, in every state; so every state reachable by steps and host
actions has both. Such a state shows for good that the run is halted, faulted or shut down exactly as its fields say, and
shows no end when it steps or waits. And every run, whatever the host does before each turn, ends in exactly one of the five
ways (70_reset_and_hazards.md R206, R209, R210 [D37]). The host's actions on an ended block are the model's choice (log 24),
and so is a run as turns under a schedule of the host (log 25). -/
def Obligations.ReachableStatesMeetTheInvariant : Prop :=
  (∀ (s : State) (h : HostAction), State.Inv s → State.Inv (s.host h) ∧ (s.host h).cfg = s.cfg) ∧
  (∀ (cfg : Config) (s : State), Reachable cfg s →
    State.Inv s ∧ s.cfg = cfg ∧
    (s.ended = some .halted ↔ s.running = false) ∧
    (∀ r, s.ended = some (.faulted r) ↔ s.fault = some r) ∧
    (s.ended = some .shutDown ↔ s.shutdown = true ∧ s.running = true ∧ s.fault = none) ∧
    (s.ended = none ↔ (∃ t, step s = .next t) ∨ step s = .fault .awaitingInput)) ∧
  ∀ (s : State) (h : Schedule), ∃ e, RunEnds h s e ∧ ∀ e', RunEnds h s e' → e' = e
end

