-- ==== Sys2Proof/Laws/Decode.lean ====
section
/-! SUPPORT. Laws of the decoder's parts: reading an opcode or a mode bit off a mask and pattern, and the sign extension
of a field. -/

namespace Sys2Proof

/-- A word under a mask that keeps the opcode field has the pattern's opcode. -/
theorem op_of_mask (w p m : Word) (h : w &&& m = p) (hm : m.extractLsb' 12 4 = 0xF#4) :
    w.extractLsb' 12 4 = p.extractLsb' 12 4 := by
  subst h
  apply BitVec.eq_of_getLsbD_eq
  intro i hi
  have := congrArg (·.getLsbD i) hm
  simp [hi] at this ⊢
  interval_cases i <;> simp_all

/-- A word under a mask that keeps bit `k` has the pattern's bit `k`. -/
theorem bit_of_mask (w p m : Word) (k : Nat) (h : w &&& m = p) (hm : m.getLsbD k = true) : w.getLsbD k = p.getLsbD k := by
  subst h
  simp [hm]

/-- The decoder selects by the opcode alone (30_encoding.md R71, R79). -/
theorem decode_of_op (w : Word) (o : BitVec 4) (h : w.extractLsb' 12 4 = o) :
    decode w = select { fields w with op := o } := by
  subst h
  rfl

/-- On a field, the source's contract is two's-complement sign extension (00_scope.md R9). -/
theorem sext_bits (w : Word) (n : Nat) (h1 : 1 ≤ n) (h : n ≤ 16) :
    sext n (bits w 0 n) = (w.extractLsb' 0 n).signExtend 16 := by
  apply BitVec.eq_of_getLsbD_eq
  intro i hi
  unfold sext bits
  rw [BitVec.getLsbD_signExtend]
  have hmsb : (w.extractLsb' 0 n).msb = w.getLsbD (n - 1) := by
    simp [BitVec.msb_eq_getLsbD_last]
    omega
  have hb : ((w.extractLsb' 0 n).setWidth 16).getLsbD (n - 1) = w.getLsbD (n - 1) := by
    have h16 : n - 1 < 16 := by omega
    have hn : n - 1 < n := by omega
    simp [h16, hn]
  rw [hmsb, hb]
  by_cases hin : i < n
  · cases w.getLsbD (n - 1) <;> simp [hin, hi]
  · cases w.getLsbD (n - 1)
    · simp [hin, hi]
    · have hones : (0xFFFF#16).getLsbD (i - n) = true := by
        have e : (0xFFFF#16) = BitVec.allOnes 16 := rfl
        rw [e, BitVec.getLsbD_allOnes]
        simp
        omega
      simp only [if_true, BitVec.getLsbD_or, BitVec.getLsbD_shiftLeft, hones, hin, hi]
      simp

/-- A sign-extended field is in its range. -/
theorem fitsSigned_signExtend (n : Nat) (x : BitVec n) (h1 : 1 ≤ n) (h : n ≤ 16) :
    fitsSigned n (x.signExtend 16) = true := by
  unfold fitsSigned
  rw [BitVec.toInt_signExtend]
  have hlt := BitVec.toInt_lt (x := x)
  have hle := BitVec.le_toInt x
  have e : min 16 n = n := by omega
  have hx : x.toInt.bmod (2 ^ n) = x.toInt := by simp
  rw [e]
  simp only [hx, decide_eq_true_eq]
  omega

/-- Truncating a value in range and extending it again gives it back. -/
theorem signExtend_setWidth (n : Nat) (off : Word) (h1 : 1 ≤ n) (h : n ≤ 16) (hf : fitsSigned n off = true) :
    (off.setWidth n).signExtend 16 = off := by
  apply BitVec.eq_of_toInt_eq
  rw [BitVec.toInt_signExtend, BitVec.toInt_setWidth]
  have e : min 16 n = n := by omega
  simp [fitsSigned] at hf
  have hh : (off.toNat : Int).bmod (2 ^ n) = off.toInt.bmod (2 ^ n) := by
    rw [BitVec.toInt_eq_toNat_bmod, Int.bmod_bmod_of_dvd]
    exact_mod_cast Nat.pow_dvd_pow 2 h
  have hpow : (2 : Int) ^ n = 2 * 2 ^ (n - 1) := by
    rw [← pow_succ']
    congr 1
    omega
  rw [e, hh, Int.bmod_bmod]
  apply Int.bmod_eq_of_le <;> push_cast <;> omega

/-- Everything the decoder on bit strings accepts: one word, as `decode` reads it (30_encoding.md R70). -/
theorem decodeBits_eq_ok (nbits w : Nat) (i : Instr) :
    decodeBits nbits w = .ok i ↔ nbits = 16 ∧ w < 2 ^ 16 ∧ decode (BitVec.ofNat 16 w) = i := by
  unfold decodeBits
  split
  · simp_all
  · split
    · simp; omega
    · simp_all

end Sys2Proof
end

