-- ==== Sys2Proof/Laws/Memory.lean ====
section
/-! SUPPORT. The laws of the memory bank: read after write, the canonical form, and equality of canonical memories. -/

namespace Sys2Proof.Machine

theorem Memory.readByte_of_not_mem (m : Memory) (k : Nat) (h : ∀ c ∈ m, c.1 ≠ k) : m.readByte k = Memory.unlisted := by
  induction m with
  | nil => rfl
  | cons c m ih =>
    have hc : c.1 ≠ k := h c (by simp)
    simp only [Memory.readByte, hc, if_false]
    exact ih fun d hd => h d (by simp [hd])

theorem Memory.readByte_append (m n : Memory) (k : Nat) (h : ∀ c ∈ m, c.1 ≠ k) :
    Memory.readByte (m ++ n) k = Memory.readByte n k := by
  induction m with
  | nil => rfl
  | cons c m ih =>
    have hc : c.1 ≠ k := h c (by simp)
    simp only [List.cons_append, Memory.readByte, hc, if_false]
    exact ih fun d hd => h d (by simp [hd])

/-- A filter that keeps every cell of key `k` does not change what `k` reads as. -/
theorem Memory.readByte_filter (m : Memory) (p : Host.Cell → Bool) (k : Nat) (h : ∀ c : Host.Cell, c.1 = k → p c = true) :
    Memory.readByte (m.filter p) k = Memory.readByte m k := by
  induction m with
  | nil => rfl
  | cons c m ih =>
    by_cases hc : c.1 = k
    · simp [List.filter, h c hc, Memory.readByte, hc]
    · by_cases hp : p c = true
      · simp [List.filter, hp, Memory.readByte, hc, ih]
      · simp [List.filter, hp, Memory.readByte, hc, ih]

theorem Memory.readByte_writeByte_same (m : Memory) (k : Nat) (b : Byte) : (m.writeByte k b).readByte k = b := by
  have hlow : ∀ c ∈ m.filter (fun c => decide (c.1 < k)), c.1 ≠ k := by
    intro c hc
    have := (List.mem_filter.mp hc).2
    simp at this
    omega
  have hhigh : ∀ c ∈ m.filter (fun c => decide (k < c.1)), c.1 ≠ k := by
    intro c hc
    have := (List.mem_filter.mp hc).2
    simp at this
    omega
  unfold Memory.writeByte
  rw [List.append_assoc, Memory.readByte_append _ _ _ hlow]
  by_cases hb : b = Memory.unlisted
  · simp only [hb, if_true, List.nil_append]
    exact Memory.readByte_of_not_mem _ _ hhigh
  · simp [hb, Memory.readByte]

theorem Memory.readByte_writeByte_ne (m : Memory) (k j : Nat) (b : Byte) (h : j ≠ k) :
    (m.writeByte k b).readByte j = m.readByte j := by
  unfold Memory.writeByte
  rw [List.append_assoc]
  by_cases hj : j < k
  · have hmid : ∀ c ∈ (if b = Memory.unlisted then [] else [(k, b)]) ++ m.filter (fun c => decide (k < c.1)), c.1 ≠ j := by
      intro c hc
      rcases List.mem_append.mp hc with hc | hc
      · split at hc <;> simp at hc
        subst hc; simp; omega
      · have := (List.mem_filter.mp hc).2
        simp at this
        omega
    have hsplit : ∀ x y : Memory, (∀ c ∈ y, c.1 ≠ j) → Memory.readByte (x ++ y) j = Memory.readByte x j := by
      intro x y hy
      induction x with
      | nil => simpa [Memory.readByte] using Memory.readByte_of_not_mem y j hy
      | cons c x ih => simp [Memory.readByte, ih]
    rw [hsplit _ _ hmid]
    exact Memory.readByte_filter m _ j fun c hc => by simp [hc, hj]
  · have hlow : ∀ c ∈ m.filter (fun c => decide (c.1 < k)), c.1 ≠ j := by
      intro c hc
      have := (List.mem_filter.mp hc).2
      simp at this
      omega
    rw [Memory.readByte_append _ _ _ hlow]
    have hkj : k < j := by omega
    have hmid : ∀ c ∈ (if b = Memory.unlisted then ([] : Memory) else [(k, b)]), c.1 ≠ j := by
      intro c hc
      split at hc <;> simp at hc
      subst hc; simp; omega
    rw [Memory.readByte_append _ _ _ hmid]
    exact Memory.readByte_filter m _ j fun c hc => by simp [hc, hkj]

/-- A write inside the bank keeps the canonical form. -/
theorem Memory.writeByte_wf (m : Memory) (k : Nat) (b : Byte) (hk : k < 2 * 65536) (h : m.wf) : (m.writeByte k b).wf := by
  obtain ⟨hp, hm⟩ := h
  constructor
  · unfold Memory.writeByte
    rw [List.append_assoc]
    refine List.pairwise_append.mpr ⟨hp.filter _, ?_, ?_⟩
    · refine List.pairwise_append.mpr ⟨?_, hp.filter _, ?_⟩
      · split <;> simp
      · intro x hx y hy
        split at hx <;> simp at hx
        subst hx
        simpa using (List.mem_filter.mp hy).2
    · intro x hx y hy
      have hx := (List.mem_filter.mp hx).2
      simp at hx
      rcases List.mem_append.mp hy with hy | hy
      · split at hy <;> simp at hy
        subst hy; exact hx
      · have hy := (List.mem_filter.mp hy).2
        simp at hy
        omega
  · intro c hc
    unfold Memory.writeByte at hc
    rcases List.mem_append.mp hc with hc | hc
    · rcases List.mem_append.mp hc with hc | hc
      · exact hm c (List.mem_filter.mp hc).1
      · split at hc <;> simp at hc
        rename_i hb
        subst hc
        exact ⟨hb, hk⟩
    · exact hm c (List.mem_filter.mp hc).1

@[simp] theorem Memory.wf_nil : Memory.wf [] := by simp [Memory.wf]

/-- Canonical memories that read alike are equal data. -/
theorem Memory.ext_of_wf (m n : Memory) (hm : m.wf) (hn : n.wf) (h : ∀ k, m.readByte k = n.readByte k) : m = n := by
  induction m generalizing n with
  | nil =>
    cases n with
    | nil => rfl
    | cons d n =>
      have := h d.1
      simp [Memory.readByte] at this
      exact absurd this.symm (hn.2 d (by simp)).1
  | cons c m ih =>
    have hcm : ∀ e ∈ m, c.1 < e.1 := (List.pairwise_cons.mp hm.1).1
    cases n with
    | nil =>
      have := h c.1
      simp [Memory.readByte] at this
      exact absurd this (hm.2 c (by simp)).1
    | cons d n =>
      have hdn : ∀ e ∈ n, d.1 < e.1 := (List.pairwise_cons.mp hn.1).1
      have hkey : c.1 = d.1 := by
        rcases Nat.lt_trichotomy c.1 d.1 with hlt | heq | hgt
        · have h1 := h c.1
          have h2 : Memory.readByte (d :: n) c.1 = Memory.unlisted := by
            apply Memory.readByte_of_not_mem
            intro e he
            rcases List.mem_cons.mp he with rfl | he
            · omega
            · have := hdn e he
              omega
          rw [h2] at h1
          simp [Memory.readByte] at h1
          exact absurd h1 (hm.2 c (by simp)).1
        · exact heq
        · have h1 := h d.1
          have h2 : Memory.readByte (c :: m) d.1 = Memory.unlisted := by
            apply Memory.readByte_of_not_mem
            intro e he
            rcases List.mem_cons.mp he with rfl | he
            · omega
            · have := hcm e he
              omega
          rw [h2] at h1
          simp [Memory.readByte] at h1
          exact absurd h1.symm (hn.2 d (by simp)).1
      have hval : c.2 = d.2 := by
        have := h c.1
        simpa [Memory.readByte, hkey] using this
      have hcd : c = d := Prod.ext hkey hval
      subst hcd
      congr 1
      refine ih n ⟨(List.pairwise_cons.mp hm.1).2, fun e he => hm.2 e (by simp [he])⟩
        ⟨(List.pairwise_cons.mp hn.1).2, fun e he => hn.2 e (by simp [he])⟩ fun k => ?_
      by_cases hk : c.1 = k
      · rw [Memory.readByte_of_not_mem m k fun e he => by have := hcm e he; omega,
          Memory.readByte_of_not_mem n k fun e he => by have := hdn e he; omega]
      · have := h k
        simpa [Memory.readByte, hk] using this

/-! ### Words -/

theorem Lane.key_lt (l : Lane) (a : Word) : l.key a < 2 * 65536 := by
  have := a.isLt
  cases l <;> simp only [Lane.key] <;> omega

theorem Lane.key_ne_of_ne (l l' : Lane) (a b : Word) (h : a ≠ b) : l.key a ≠ l'.key b := by
  have hne : a.toNat ≠ b.toNat := fun e => h (BitVec.eq_of_toNat_eq e)
  cases l <;> cases l' <;> simp only [Lane.key] <;> omega

theorem Lane.high_ne_low (a b : Word) : Lane.key .high a ≠ Lane.key .low b := by
  simp only [Lane.key]; omega

theorem high_append_low (v : Word) : (highByte v ++ lowByte v : BitVec (8 + 8)) = v := by
  apply BitVec.eq_of_getLsbD_eq
  intro i hi
  simp only [BitVec.getLsbD_append, highByte, lowByte, BitVec.getLsbD_extractLsb']
  by_cases h : i < 8
  · simp [h]
  · have h8 : i - 8 < 8 := by omega
    have e : 8 + (i - 8) = i := by omega
    simp [h, h8, e]

/-- The bytes of a word after a word write: the stored lanes at the word, every other key as before. -/
theorem Memory.readByte_writeWord_ne (m : Memory) (a v : Word) (k : Nat)
    (h : k ≠ Lane.key .low a ∧ k ≠ Lane.key .high a) : (m.writeWord a v).readByte k = m.readByte k := by
  unfold Memory.writeWord
  rw [Memory.readByte_writeByte_ne _ _ _ _ h.2, Memory.readByte_writeByte_ne _ _ _ _ h.1]

@[simp] theorem Memory.readWord_writeWord_same (m : Memory) (a v : Word) : (m.writeWord a v).readWord a = v := by
  unfold Memory.readWord Memory.writeWord
  rw [Memory.readByte_writeByte_same, Memory.readByte_writeByte_ne _ _ _ _ (Lane.high_ne_low a a).symm,
    Memory.readByte_writeByte_same]
  exact high_append_low v

theorem Memory.readWord_writeWord_ne (m : Memory) (a b v : Word) (h : b ≠ a) :
    (m.writeWord a v).readWord b = m.readWord b := by
  unfold Memory.readWord
  rw [Memory.readByte_writeWord_ne _ _ _ _ ⟨Lane.key_ne_of_ne _ _ _ _ h, Lane.key_ne_of_ne _ _ _ _ h⟩,
    Memory.readByte_writeWord_ne _ _ _ _ ⟨Lane.key_ne_of_ne _ _ _ _ h, Lane.key_ne_of_ne _ _ _ _ h⟩]

theorem Memory.writeWord_wf (m : Memory) (a v : Word) (h : m.wf) : (m.writeWord a v).wf :=
  Memory.writeByte_wf _ _ _ (Lane.key_lt _ _) (Memory.writeByte_wf _ _ _ (Lane.key_lt _ _) h)

end Sys2Proof.Machine
end

