-- ==== Sys2Proof/Laws/State.lean ====
section
/-! SUPPORT. One lemma per field per update of the state, so that no proof unfolds a record update. -/

namespace Sys2Proof.Machine

/-! ### `R[r] <- v` -/

@[simp] theorem State.setReg_cfg (s : State) (r : RegIdx) (v : Word) : (s.setReg r v).cfg = s.cfg := rfl
@[simp] theorem State.setReg_regs (s : State) (r : RegIdx) (v : Word) : (s.setReg r v).regs = s.regs.set r.toNat v (by have := r.isLt; omega) := rfl
@[simp] theorem State.setReg_hasValue (s : State) (r : RegIdx) (v : Word) : (s.setReg r v).hasValue = s.hasValue.set r.toNat true (by have := r.isLt; omega) := rfl
@[simp] theorem State.setReg_pc (s : State) (r : RegIdx) (v : Word) : (s.setReg r v).pc = s.pc := rfl
@[simp] theorem State.setReg_cond (s : State) (r : RegIdx) (v : Word) : (s.setReg r v).cond = s.cond := rfl
@[simp] theorem State.setReg_mem (s : State) (r : RegIdx) (v : Word) : (s.setReg r v).mem = s.mem := rfl
@[simp] theorem State.setReg_running (s : State) (r : RegIdx) (v : Word) : (s.setReg r v).running = s.running := rfl
@[simp] theorem State.setReg_written (s : State) (r : RegIdx) (v : Word) : (s.setReg r v).written = s.written := rfl
@[simp] theorem State.setReg_fault (s : State) (r : RegIdx) (v : Word) : (s.setReg r v).fault = s.fault := rfl
@[simp] theorem State.setReg_shutdown (s : State) (r : RegIdx) (v : Word) : (s.setReg r v).shutdown = s.shutdown := rfl
@[simp] theorem State.setReg_gate (s : State) (r : RegIdx) (v : Word) : (s.setReg r v).gate = s.gate := rfl
@[simp] theorem State.setReg_keys (s : State) (r : RegIdx) (v : Word) : (s.setReg r v).keys = s.keys := rfl
@[simp] theorem State.setReg_console (s : State) (r : RegIdx) (v : Word) : (s.setReg r v).console = s.console := rfl
@[simp] theorem State.setReg_diags (s : State) (r : RegIdx) (v : Word) : (s.setReg r v).diags = s.diags := rfl

/-! ### `setcc(v)` -/

@[simp] theorem State.setcc_cfg (s : State) (v : Word) : (s.setcc v).cfg = s.cfg := rfl
@[simp] theorem State.setcc_regs (s : State) (v : Word) : (s.setcc v).regs = s.regs := rfl
@[simp] theorem State.setcc_hasValue (s : State) (v : Word) : (s.setcc v).hasValue = s.hasValue := rfl
@[simp] theorem State.setcc_pc (s : State) (v : Word) : (s.setcc v).pc = s.pc := rfl
@[simp] theorem State.setcc_cond (s : State) (v : Word) : (s.setcc v).cond = condOf v := rfl
@[simp] theorem State.setcc_mem (s : State) (v : Word) : (s.setcc v).mem = s.mem := rfl
@[simp] theorem State.setcc_running (s : State) (v : Word) : (s.setcc v).running = s.running := rfl
@[simp] theorem State.setcc_written (s : State) (v : Word) : (s.setcc v).written = s.written := rfl
@[simp] theorem State.setcc_fault (s : State) (v : Word) : (s.setcc v).fault = s.fault := rfl
@[simp] theorem State.setcc_shutdown (s : State) (v : Word) : (s.setcc v).shutdown = s.shutdown := rfl
@[simp] theorem State.setcc_gate (s : State) (v : Word) : (s.setcc v).gate = s.gate := rfl
@[simp] theorem State.setcc_keys (s : State) (v : Word) : (s.setcc v).keys = s.keys := rfl
@[simp] theorem State.setcc_console (s : State) (v : Word) : (s.setcc v).console = s.console := rfl
@[simp] theorem State.setcc_diags (s : State) (v : Word) : (s.setcc v).diags = s.diags := rfl

/-! ### `PC <- v` -/

@[simp] theorem State.setPc_cfg (s : State) (v : Word) : (s.setPc v).cfg = s.cfg := rfl
@[simp] theorem State.setPc_regs (s : State) (v : Word) : (s.setPc v).regs = s.regs := rfl
@[simp] theorem State.setPc_hasValue (s : State) (v : Word) : (s.setPc v).hasValue = s.hasValue := rfl
@[simp] theorem State.setPc_pc (s : State) (v : Word) : (s.setPc v).pc = v := rfl
@[simp] theorem State.setPc_cond (s : State) (v : Word) : (s.setPc v).cond = s.cond := rfl
@[simp] theorem State.setPc_mem (s : State) (v : Word) : (s.setPc v).mem = s.mem := rfl
@[simp] theorem State.setPc_running (s : State) (v : Word) : (s.setPc v).running = s.running := rfl
@[simp] theorem State.setPc_written (s : State) (v : Word) : (s.setPc v).written = s.written := rfl
@[simp] theorem State.setPc_fault (s : State) (v : Word) : (s.setPc v).fault = s.fault := rfl
@[simp] theorem State.setPc_shutdown (s : State) (v : Word) : (s.setPc v).shutdown = s.shutdown := rfl
@[simp] theorem State.setPc_gate (s : State) (v : Word) : (s.setPc v).gate = s.gate := rfl
@[simp] theorem State.setPc_keys (s : State) (v : Word) : (s.setPc v).keys = s.keys := rfl
@[simp] theorem State.setPc_console (s : State) (v : Word) : (s.setPc v).console = s.console := rfl
@[simp] theorem State.setPc_diags (s : State) (v : Word) : (s.setPc v).diags = s.diags := rfl

/-! ### `raise K(info)` -/

@[simp] theorem State.raise_cfg (s : State) (k : FaultRecord) : (s.raise k).cfg = s.cfg := rfl
@[simp] theorem State.raise_regs (s : State) (k : FaultRecord) : (s.raise k).regs = s.regs := rfl
@[simp] theorem State.raise_hasValue (s : State) (k : FaultRecord) : (s.raise k).hasValue = s.hasValue := rfl
@[simp] theorem State.raise_pc (s : State) (k : FaultRecord) : (s.raise k).pc = s.pc := rfl
@[simp] theorem State.raise_cond (s : State) (k : FaultRecord) : (s.raise k).cond = s.cond := rfl
@[simp] theorem State.raise_mem (s : State) (k : FaultRecord) : (s.raise k).mem = s.mem := rfl
@[simp] theorem State.raise_running (s : State) (k : FaultRecord) : (s.raise k).running = s.running := rfl
@[simp] theorem State.raise_written (s : State) (k : FaultRecord) : (s.raise k).written = s.written := rfl
@[simp] theorem State.raise_fault (s : State) (k : FaultRecord) : (s.raise k).fault = some k := rfl
@[simp] theorem State.raise_shutdown (s : State) (k : FaultRecord) : (s.raise k).shutdown = s.shutdown := rfl
@[simp] theorem State.raise_gate (s : State) (k : FaultRecord) : (s.raise k).gate = s.gate := rfl
@[simp] theorem State.raise_keys (s : State) (k : FaultRecord) : (s.raise k).keys = s.keys := rfl
@[simp] theorem State.raise_console (s : State) (k : FaultRecord) : (s.raise k).console = s.console := rfl
@[simp] theorem State.raise_diags (s : State) (k : FaultRecord) : (s.raise k).diags = s.diags := rfl

/-! ### `diag(kind, info)` -/

@[simp] theorem State.diag_cfg (s : State) (k : FaultRecord) : (s.diag k).cfg = s.cfg := rfl
@[simp] theorem State.diag_regs (s : State) (k : FaultRecord) : (s.diag k).regs = s.regs := rfl
@[simp] theorem State.diag_hasValue (s : State) (k : FaultRecord) : (s.diag k).hasValue = s.hasValue := rfl
@[simp] theorem State.diag_pc (s : State) (k : FaultRecord) : (s.diag k).pc = s.pc := rfl
@[simp] theorem State.diag_cond (s : State) (k : FaultRecord) : (s.diag k).cond = s.cond := rfl
@[simp] theorem State.diag_mem (s : State) (k : FaultRecord) : (s.diag k).mem = s.mem := rfl
@[simp] theorem State.diag_running (s : State) (k : FaultRecord) : (s.diag k).running = s.running := rfl
@[simp] theorem State.diag_written (s : State) (k : FaultRecord) : (s.diag k).written = s.written := rfl
@[simp] theorem State.diag_fault (s : State) (k : FaultRecord) : (s.diag k).fault = s.fault := rfl
@[simp] theorem State.diag_shutdown (s : State) (k : FaultRecord) : (s.diag k).shutdown = s.shutdown := rfl
@[simp] theorem State.diag_gate (s : State) (k : FaultRecord) : (s.diag k).gate = s.gate := rfl
@[simp] theorem State.diag_keys (s : State) (k : FaultRecord) : (s.diag k).keys = s.keys := rfl
@[simp] theorem State.diag_console (s : State) (k : FaultRecord) : (s.diag k).console = s.console := rfl
@[simp] theorem State.diag_diags (s : State) (k : FaultRecord) : (s.diag k).diags = s.diags ++ [k] := rfl

/-! ### `emit(b)` -/

@[simp] theorem State.emit_cfg (s : State) (b : Byte) : (s.emit b).cfg = s.cfg := rfl
@[simp] theorem State.emit_regs (s : State) (b : Byte) : (s.emit b).regs = s.regs := rfl
@[simp] theorem State.emit_hasValue (s : State) (b : Byte) : (s.emit b).hasValue = s.hasValue := rfl
@[simp] theorem State.emit_pc (s : State) (b : Byte) : (s.emit b).pc = s.pc := rfl
@[simp] theorem State.emit_cond (s : State) (b : Byte) : (s.emit b).cond = s.cond := rfl
@[simp] theorem State.emit_mem (s : State) (b : Byte) : (s.emit b).mem = s.mem := rfl
@[simp] theorem State.emit_running (s : State) (b : Byte) : (s.emit b).running = s.running := rfl
@[simp] theorem State.emit_written (s : State) (b : Byte) : (s.emit b).written = s.written := rfl
@[simp] theorem State.emit_fault (s : State) (b : Byte) : (s.emit b).fault = s.fault := rfl
@[simp] theorem State.emit_shutdown (s : State) (b : Byte) : (s.emit b).shutdown = s.shutdown := rfl
@[simp] theorem State.emit_gate (s : State) (b : Byte) : (s.emit b).gate = s.gate := rfl
@[simp] theorem State.emit_keys (s : State) (b : Byte) : (s.emit b).keys = s.keys := rfl
@[simp] theorem State.emit_console (s : State) (b : Byte) : (s.emit b).console = s.console ++ [b] := rfl
@[simp] theorem State.emit_diags (s : State) (b : Byte) : (s.emit b).diags = s.diags := rfl

/-! ### `Unsupported`: the fields it leaves alone -/

@[simp] theorem State.unsupported_cfg (s : State) (k : FaultRecord) : (s.unsupported k).cfg = s.cfg := by unfold State.unsupported; split <;> rfl
@[simp] theorem State.unsupported_regs (s : State) (k : FaultRecord) : (s.unsupported k).regs = s.regs := by unfold State.unsupported; split <;> rfl
@[simp] theorem State.unsupported_hasValue (s : State) (k : FaultRecord) : (s.unsupported k).hasValue = s.hasValue := by unfold State.unsupported; split <;> rfl
@[simp] theorem State.unsupported_pc (s : State) (k : FaultRecord) : (s.unsupported k).pc = s.pc := by unfold State.unsupported; split <;> rfl
@[simp] theorem State.unsupported_cond (s : State) (k : FaultRecord) : (s.unsupported k).cond = s.cond := by unfold State.unsupported; split <;> rfl
@[simp] theorem State.unsupported_mem (s : State) (k : FaultRecord) : (s.unsupported k).mem = s.mem := by unfold State.unsupported; split <;> rfl
@[simp] theorem State.unsupported_running (s : State) (k : FaultRecord) : (s.unsupported k).running = s.running := by unfold State.unsupported; split <;> rfl
@[simp] theorem State.unsupported_written (s : State) (k : FaultRecord) : (s.unsupported k).written = s.written := by unfold State.unsupported; split <;> rfl
@[simp] theorem State.unsupported_shutdown (s : State) (k : FaultRecord) : (s.unsupported k).shutdown = s.shutdown := by unfold State.unsupported; split <;> rfl
@[simp] theorem State.unsupported_gate (s : State) (k : FaultRecord) : (s.unsupported k).gate = s.gate := by unfold State.unsupported; split <;> rfl
@[simp] theorem State.unsupported_keys (s : State) (k : FaultRecord) : (s.unsupported k).keys = s.keys := by unfold State.unsupported; split <;> rfl
@[simp] theorem State.unsupported_console (s : State) (k : FaultRecord) : (s.unsupported k).console = s.console := by unfold State.unsupported; split <;> rfl

@[simp] theorem State.unsupported_diags (s : State) (k : FaultRecord) : (s.unsupported k).diags = s.diags ++ [k] := by
  unfold State.unsupported; split <;> rfl

theorem State.unsupported_fault (s : State) (k : FaultRecord) :
    (s.unsupported k).fault = match s.cfg.unsupportedPolicy with | .fault => some k | .goOn => s.fault := by
  unfold State.unsupported; cases s.cfg.unsupportedPolicy <;> rfl

/-! ### recording a written address: the fields it leaves alone -/

@[simp] theorem State.noteWritten_cfg (s : State) (a : Word) : (s.noteWritten a).cfg = s.cfg := rfl
@[simp] theorem State.noteWritten_regs (s : State) (a : Word) : (s.noteWritten a).regs = s.regs := rfl
@[simp] theorem State.noteWritten_hasValue (s : State) (a : Word) : (s.noteWritten a).hasValue = s.hasValue := rfl
@[simp] theorem State.noteWritten_pc (s : State) (a : Word) : (s.noteWritten a).pc = s.pc := rfl
@[simp] theorem State.noteWritten_cond (s : State) (a : Word) : (s.noteWritten a).cond = s.cond := rfl
@[simp] theorem State.noteWritten_mem (s : State) (a : Word) : (s.noteWritten a).mem = s.mem := rfl
@[simp] theorem State.noteWritten_running (s : State) (a : Word) : (s.noteWritten a).running = s.running := rfl
@[simp] theorem State.noteWritten_fault (s : State) (a : Word) : (s.noteWritten a).fault = s.fault := rfl
@[simp] theorem State.noteWritten_shutdown (s : State) (a : Word) : (s.noteWritten a).shutdown = s.shutdown := rfl
@[simp] theorem State.noteWritten_gate (s : State) (a : Word) : (s.noteWritten a).gate = s.gate := rfl
@[simp] theorem State.noteWritten_keys (s : State) (a : Word) : (s.noteWritten a).keys = s.keys := rfl
@[simp] theorem State.noteWritten_console (s : State) (a : Word) : (s.noteWritten a).console = s.console := rfl
@[simp] theorem State.noteWritten_diags (s : State) (a : Word) : (s.noteWritten a).diags = s.diags := rfl

theorem State.noteWritten_written (s : State) (a : Word) :
    (s.noteWritten a).written = match s.cfg.smcPolicy with | .fault => insertAddr s.written a.toNat | .coherent => s.written :=
  rfl

/-! ### `MemWrite`: the fields it leaves alone -/

@[simp] theorem State.memWrite_cfg (s : State) (a v : Word) : (s.memWrite a v).cfg = s.cfg := rfl
@[simp] theorem State.memWrite_regs (s : State) (a v : Word) : (s.memWrite a v).regs = s.regs := rfl
@[simp] theorem State.memWrite_hasValue (s : State) (a v : Word) : (s.memWrite a v).hasValue = s.hasValue := rfl
@[simp] theorem State.memWrite_pc (s : State) (a v : Word) : (s.memWrite a v).pc = s.pc := rfl
@[simp] theorem State.memWrite_cond (s : State) (a v : Word) : (s.memWrite a v).cond = s.cond := rfl
@[simp] theorem State.memWrite_running (s : State) (a v : Word) : (s.memWrite a v).running = s.running := rfl
@[simp] theorem State.memWrite_fault (s : State) (a v : Word) : (s.memWrite a v).fault = s.fault := rfl
@[simp] theorem State.memWrite_shutdown (s : State) (a v : Word) : (s.memWrite a v).shutdown = s.shutdown := rfl
@[simp] theorem State.memWrite_gate (s : State) (a v : Word) : (s.memWrite a v).gate = s.gate := rfl
@[simp] theorem State.memWrite_keys (s : State) (a v : Word) : (s.memWrite a v).keys = s.keys := rfl
@[simp] theorem State.memWrite_console (s : State) (a v : Word) : (s.memWrite a v).console = s.console := rfl
@[simp] theorem State.memWrite_diags (s : State) (a v : Word) : (s.memWrite a v).diags = s.diags := rfl

@[simp] theorem State.memWrite_mem (s : State) (a v : Word) : (s.memWrite a v).mem = s.mem.writeWord a v := rfl

theorem State.memWrite_written (s : State) (a v : Word) :
    (s.memWrite a v).written = match s.cfg.smcPolicy with | .fault => insertAddr s.written a.toNat | .coherent => s.written :=
  rfl

/-! ### the effect of a read: the fields it leaves alone -/

@[simp] theorem State.touch_cfg (s : State) (a : Word) : (s.touch a).cfg = s.cfg := rfl
@[simp] theorem State.touch_regs (s : State) (a : Word) : (s.touch a).regs = s.regs := rfl
@[simp] theorem State.touch_hasValue (s : State) (a : Word) : (s.touch a).hasValue = s.hasValue := rfl
@[simp] theorem State.touch_pc (s : State) (a : Word) : (s.touch a).pc = s.pc := rfl
@[simp] theorem State.touch_cond (s : State) (a : Word) : (s.touch a).cond = s.cond := rfl
@[simp] theorem State.touch_running (s : State) (a : Word) : (s.touch a).running = s.running := rfl
@[simp] theorem State.touch_written (s : State) (a : Word) : (s.touch a).written = s.written := rfl
@[simp] theorem State.touch_fault (s : State) (a : Word) : (s.touch a).fault = s.fault := rfl
@[simp] theorem State.touch_shutdown (s : State) (a : Word) : (s.touch a).shutdown = s.shutdown := rfl
@[simp] theorem State.touch_gate (s : State) (a : Word) : (s.touch a).gate = s.gate := rfl
@[simp] theorem State.touch_console (s : State) (a : Word) : (s.touch a).console = s.console := rfl
@[simp] theorem State.touch_diags (s : State) (a : Word) : (s.touch a).diags = s.diags := rfl

@[simp] theorem State.memRead_snd (s : State) (a : Word) : (s.memRead a).2 = s.touch a := rfl

@[simp] theorem State.memRead_fst (s : State) (a : Word) : (s.memRead a).1 = (s.touch a).mem.readWord a := rfl

/-! ### a byte patch: the fields it leaves alone -/

@[simp] theorem State.patch_cfg (s : State) (a : Word) (l : Lane) (b : Byte) : (s.patch a l b).cfg = s.cfg := rfl
@[simp] theorem State.patch_regs (s : State) (a : Word) (l : Lane) (b : Byte) : (s.patch a l b).regs = s.regs := rfl
@[simp] theorem State.patch_hasValue (s : State) (a : Word) (l : Lane) (b : Byte) : (s.patch a l b).hasValue = s.hasValue := rfl
@[simp] theorem State.patch_pc (s : State) (a : Word) (l : Lane) (b : Byte) : (s.patch a l b).pc = s.pc := rfl
@[simp] theorem State.patch_cond (s : State) (a : Word) (l : Lane) (b : Byte) : (s.patch a l b).cond = s.cond := rfl
@[simp] theorem State.patch_running (s : State) (a : Word) (l : Lane) (b : Byte) : (s.patch a l b).running = s.running := rfl
@[simp] theorem State.patch_fault (s : State) (a : Word) (l : Lane) (b : Byte) : (s.patch a l b).fault = s.fault := rfl
@[simp] theorem State.patch_shutdown (s : State) (a : Word) (l : Lane) (b : Byte) : (s.patch a l b).shutdown = s.shutdown := rfl
@[simp] theorem State.patch_gate (s : State) (a : Word) (l : Lane) (b : Byte) : (s.patch a l b).gate = s.gate := rfl
@[simp] theorem State.patch_keys (s : State) (a : Word) (l : Lane) (b : Byte) : (s.patch a l b).keys = s.keys := rfl
@[simp] theorem State.patch_console (s : State) (a : Word) (l : Lane) (b : Byte) : (s.patch a l b).console = s.console := rfl
@[simp] theorem State.patch_diags (s : State) (a : Word) (l : Lane) (b : Byte) : (s.patch a l b).diags = s.diags := rfl

@[simp] theorem State.patch_mem (s : State) (a : Word) (l : Lane) (b : Byte) :
    (s.patch a l b).mem = s.mem.writeByte (l.key a) b := rfl

/-! ### Reading a register after an update -/

theorem RegIdx.toNat_lt (r : RegIdx) : r.toNat < 8 := r.isLt

@[simp] theorem State.reg_setReg_same (s : State) (r : RegIdx) (v : Word) : (s.setReg r v).reg r = v := by
  simp [State.reg, State.setReg]

theorem State.reg_setReg_ne (s : State) (r q : RegIdx) (v : Word) (h : q ≠ r) : (s.setReg r v).reg q = s.reg q := by
  have : r.toNat ≠ q.toNat := fun e => h (BitVec.eq_of_toNat_eq e.symm)
  simp [State.reg, State.setReg, this]

@[simp] theorem State.regHasValue_setReg_same (s : State) (r : RegIdx) (v : Word) : (s.setReg r v).regHasValue r = true := by
  simp [State.regHasValue, State.setReg]

theorem State.regHasValue_setReg_ne (s : State) (r q : RegIdx) (v : Word) (h : q ≠ r) :
    (s.setReg r v).regHasValue q = s.regHasValue q := by
  have : r.toNat ≠ q.toNat := fun e => h (BitVec.eq_of_toNat_eq e.symm)
  simp [State.regHasValue, State.setReg, this]

theorem State.reg_congr {s t : State} (h : t.regs = s.regs) (r : RegIdx) : t.reg r = s.reg r := by
  simp [State.reg, h]

theorem State.regHasValue_congr {s t : State} (h : t.hasValue = s.hasValue) (r : RegIdx) :
    t.regHasValue r = s.regHasValue r := by
  simp [State.regHasValue, h]

@[simp] theorem State.reg_setcc (s : State) (v : Word) (r : RegIdx) : (s.setcc v).reg r = s.reg r := rfl
@[simp] theorem State.regHasValue_setcc (s : State) (v : Word) (r : RegIdx) : (s.setcc v).regHasValue r = s.regHasValue r := rfl
@[simp] theorem State.reg_setPc (s : State) (v : Word) (r : RegIdx) : (s.setPc v).reg r = s.reg r := rfl
@[simp] theorem State.regHasValue_setPc (s : State) (v : Word) (r : RegIdx) : (s.setPc v).regHasValue r = s.regHasValue r := rfl
@[simp] theorem State.reg_raise (s : State) (k : FaultRecord) (r : RegIdx) : (s.raise k).reg r = s.reg r := rfl
@[simp] theorem State.regHasValue_raise (s : State) (k : FaultRecord) (r : RegIdx) : (s.raise k).regHasValue r = s.regHasValue r := rfl
@[simp] theorem State.reg_emit (s : State) (b : Byte) (r : RegIdx) : (s.emit b).reg r = s.reg r := rfl
@[simp] theorem State.regHasValue_emit (s : State) (b : Byte) (r : RegIdx) : (s.emit b).regHasValue r = s.regHasValue r := rfl
@[simp] theorem State.reg_diag (s : State) (k : FaultRecord) (r : RegIdx) : (s.diag k).reg r = s.reg r := rfl
@[simp] theorem State.regHasValue_diag (s : State) (k : FaultRecord) (r : RegIdx) : (s.diag k).regHasValue r = s.regHasValue r := rfl
@[simp] theorem State.reg_unsupported (s : State) (k : FaultRecord) (r : RegIdx) : (s.unsupported k).reg r = s.reg r :=
  State.reg_congr (by simp) r
@[simp] theorem State.regHasValue_unsupported (s : State) (k : FaultRecord) (r : RegIdx) : (s.unsupported k).regHasValue r = s.regHasValue r :=
  State.regHasValue_congr (by simp) r
@[simp] theorem State.reg_memWrite (s : State) (a v : Word) (r : RegIdx) : (s.memWrite a v).reg r = s.reg r :=
  State.reg_congr (by simp) r
@[simp] theorem State.regHasValue_memWrite (s : State) (a v : Word) (r : RegIdx) : (s.memWrite a v).regHasValue r = s.regHasValue r :=
  State.regHasValue_congr (by simp) r
@[simp] theorem State.reg_touch (s : State) (a : Word) (r : RegIdx) : (s.touch a).reg r = s.reg r :=
  State.reg_congr (by simp) r
@[simp] theorem State.regHasValue_touch (s : State) (a : Word) (r : RegIdx) : (s.touch a).regHasValue r = s.regHasValue r :=
  State.regHasValue_congr (by simp) r

end Sys2Proof.Machine
end

