-- ==== Sys2Proof/Laws/Ops.lean ====
section
/-! SUPPORT. What each shared operation does, said once: register operands, reads and the keyboard sample, `written`,
the input source, the string loops, and the stops of a step. -/

namespace Sys2Proof.Machine

/-! ### Condition codes -/

theorem condOf_oneHot (v : Word) : OneHot (condOf v) := by
  unfold condOf OneHot
  split
  · simp
  · split <;> simp

theorem condOf_zero (v : Word) : condOf v = 0b010#3 ↔ v = 0x0000#16 := by
  unfold condOf
  split
  · simp [*]
  · split <;> simp [*]

/-! ### Register operands -/

theorem State.readReg_of_hasValue (s : State) (r : RegIdx) (k : Word → Result) (h : s.regHasValue r = true) :
    s.readReg r k = k (s.reg r) := by
  simp [State.readReg, h]

theorem State.readReg_of_noValue (s : State) (r : RegIdx) (k : Word → Result) (h : s.regHasValue r = false) :
    s.readReg r k = .next (s.raise (.unwrittenRegister r s.fetchAddr)) := by
  simp [State.readReg, h]

/-- Everything a register operand can do when a next state results. -/
theorem State.readReg_next {s t : State} {r : RegIdx} {k : Word → Result} (h : s.readReg r k = .next t) :
    (s.regHasValue r = true ∧ k (s.reg r) = .next t) ∨
    (s.regHasValue r = false ∧ t = s.raise (.unwrittenRegister r s.fetchAddr)) := by
  cases hv : s.regHasValue r with
  | true => exact .inl ⟨rfl, by rwa [s.readReg_of_hasValue r k hv] at h⟩
  | false => rw [s.readReg_of_noValue r k hv] at h; exact .inr ⟨rfl, by cases h; rfl⟩

/-! ### Reads -/

theorem State.touch_plain (s : State) (a : Word) (h : a ≠ s.cfg.kbsrAddr) : s.touch a = s := by
  simp [State.touch, readEffect, h]

theorem State.touch_key (s : State) (c : Byte) (ks : List (Option Byte)) (h : s.keys = some c :: ks) :
    s.touch s.cfg.kbsrAddr = { s with
      keys := ks
      mem := (s.mem.writeWord s.cfg.kbsrAddr 0x8000#16).writeWord s.cfg.kbdrAddr (c.setWidth 16) } := by
  simp [State.touch, readEffect, kbsrSample, keyPoll, h]

theorem State.touch_noKey (s : State) (h : (keyPoll s.keys).1 = none) :
    s.touch s.cfg.kbsrAddr = { s with keys := s.keys.tail, mem := s.mem.writeWord s.cfg.kbsrAddr 0x0000#16 } := by
  rcases hk : s.keys with _ | ⟨_ | c, ks⟩
  · simp [State.touch, readEffect, kbsrSample, keyPoll, hk]
  · simp [State.touch, readEffect, kbsrSample, keyPoll, hk]
  · simp [keyPoll, hk] at h

/-- Everything a read can do: nothing, or the two keyboard words, or the status word alone. -/
theorem State.touch_cases (s : State) (a : Word) :
    (a ≠ s.cfg.kbsrAddr ∧ s.touch a = s) ∨
    (a = s.cfg.kbsrAddr ∧ ∃ c ks, s.keys = some c :: ks ∧ s.touch a = { s with
      keys := ks
      mem := (s.mem.writeWord s.cfg.kbsrAddr 0x8000#16).writeWord s.cfg.kbdrAddr (c.setWidth 16) }) ∨
    (a = s.cfg.kbsrAddr ∧ (keyPoll s.keys).1 = none ∧
      s.touch a = { s with keys := s.keys.tail, mem := s.mem.writeWord s.cfg.kbsrAddr 0x0000#16 }) := by
  by_cases h : a = s.cfg.kbsrAddr
  · subst h
    rcases hk : s.keys with _ | ⟨_ | c, ks⟩
    · exact .inr (.inr ⟨rfl, rfl, by rw [s.touch_noKey (by simp [hk, keyPoll]), hk]⟩)
    · exact .inr (.inr ⟨rfl, rfl, by rw [s.touch_noKey (by simp [hk, keyPoll]), hk]⟩)
    · exact .inr (.inl ⟨rfl, c, ks, rfl, s.touch_key c ks hk⟩)
  · exact .inl ⟨h, s.touch_plain a h⟩

theorem State.touch_mem_wf (s : State) (a : Word) (h : s.mem.wf) : (s.touch a).mem.wf := by
  rcases s.touch_cases a with ⟨-, e⟩ | ⟨-, c, ks, -, e⟩ | ⟨-, -, e⟩ <;> rw [e]
  · exact h
  · exact Memory.writeWord_wf _ _ _ (Memory.writeWord_wf _ _ _ h)
  · exact Memory.writeWord_wf _ _ _ h

/-- A read changes no byte outside the two keyboard words. -/
theorem State.touch_readByte (s : State) (a : Word) (k : Nat)
    (hs : ∀ l : Lane, k ≠ l.key s.cfg.kbsrAddr) (hd : ∀ l : Lane, k ≠ l.key s.cfg.kbdrAddr) :
    (s.touch a).mem.readByte k = s.mem.readByte k := by
  rcases s.touch_cases a with ⟨-, e⟩ | ⟨-, c, ks, -, e⟩ | ⟨-, -, e⟩ <;> rw [e]
  · exact (Memory.readByte_writeWord_ne _ _ _ _ ⟨hd .low, hd .high⟩).trans
      (Memory.readByte_writeWord_ne _ _ _ _ ⟨hs .low, hs .high⟩)
  · exact Memory.readByte_writeWord_ne _ _ _ _ ⟨hs .low, hs .high⟩

/-! ### The set of written addresses -/

theorem mem_insertAddr (l : List Nat) (a b : Nat) : b ∈ insertAddr l a ↔ b = a ∨ b ∈ l := by
  induction l with
  | nil => simp [insertAddr]
  | cons c l ih =>
    simp only [insertAddr]
    split
    · simp
    · split
      · subst_vars; simp
      · simp [ih, or_left_comm]

theorem insertAddr_rising (l : List Nat) (a : Nat) (h : l.Pairwise (· < ·)) : (insertAddr l a).Pairwise (· < ·) := by
  induction l with
  | nil => simp [insertAddr]
  | cons c l ih =>
    obtain ⟨hc, hl⟩ := List.pairwise_cons.mp h
    simp only [insertAddr]
    split
    · rename_i hac
      refine List.pairwise_cons.mpr ⟨fun d hd => ?_, h⟩
      rcases List.mem_cons.mp hd with rfl | hd
      · exact hac
      · have := hc d hd; omega
    · split
      · exact h
      · refine List.pairwise_cons.mpr ⟨fun d hd => ?_, ih hl⟩
        rcases (mem_insertAddr _ _ _).mp hd with rfl | hd
        · omega
        · exact hc d hd

/-! ### The input source -/

/-- `input()` answers the first byte of the source, and leaves what follows it. -/
theorem nextByte_eq_some (ks : List (Option Byte)) (c : Byte) (rest : List (Option Byte)) :
    nextByte ks = some (c, rest) ↔ ∃ n, ks = List.replicate n none ++ some c :: rest := by
  induction ks with
  | nil => simp [nextByte]
  | cons k ks ih =>
    cases k with
    | none =>
      simp only [nextByte, ih]
      constructor
      · rintro ⟨n, rfl⟩; exact ⟨n + 1, rfl⟩
      · rintro ⟨n, h⟩
        cases n with
        | zero => simp at h
        | succ n => exact ⟨n, by simpa [List.replicate_succ] using h⟩
    | some d =>
      simp only [nextByte]
      constructor
      · intro h; cases h; exact ⟨0, rfl⟩
      · rintro ⟨n, h⟩
        cases n with
        | zero => simp at h; simp [h]
        | succ n => simp [List.replicate_succ] at h

theorem nextByte_eq_none (ks : List (Option Byte)) : nextByte ks = none ↔ ∀ k ∈ ks, k = none := by
  induction ks with
  | nil => simp [nextByte]
  | cons k ks ih => cases k <;> simp [nextByte, ih]

theorem State.withInput_some (s : State) (k : Byte → State → Result) (c : Byte) (ks : List (Option Byte))
    (h : nextByte s.keys = some (c, ks)) : s.withInput k = k c { s with keys := ks } := by
  simp [State.withInput, h]

theorem State.withInput_none (s : State) (k : Byte → State → Result) (h : nextByte s.keys = none) :
    s.withInput k = .fault .awaitingInput := by
  simp [State.withInput, h]

/-- Everything `input()` can do when a next state results. -/
theorem State.withInput_next {s t : State} {k : Byte → State → Result} (h : s.withInput k = .next t) :
    ∃ c ks, nextByte s.keys = some (c, ks) ∧ k c { s with keys := ks } = .next t := by
  unfold State.withInput at h
  split at h
  · exact ⟨_, _, ‹_›, h⟩
  · cases h

/-! ### The string loops -/

/-- What a step of a string loop leaves alone, packaged once: registers, control and hidden state, diagnostics. -/
structure SameCore (s t : State) : Prop where
  cfg : t.cfg = s.cfg
  regs : t.regs = s.regs
  hasValue : t.hasValue = s.hasValue
  pc : t.pc = s.pc
  cond : t.cond = s.cond
  running : t.running = s.running
  written : t.written = s.written
  fault : t.fault = s.fault
  shutdown : t.shutdown = s.shutdown
  gate : t.gate = s.gate
  diags : t.diags = s.diags

theorem SameCore.refl (s : State) : SameCore s s := ⟨rfl, rfl, rfl, rfl, rfl, rfl, rfl, rfl, rfl, rfl, rfl⟩

theorem SameCore.trans {s t u : State} (h : SameCore s t) (g : SameCore t u) : SameCore s u :=
  ⟨g.cfg.trans h.cfg, g.regs.trans h.regs, g.hasValue.trans h.hasValue, g.pc.trans h.pc, g.cond.trans h.cond,
    g.running.trans h.running, g.written.trans h.written, g.fault.trans h.fault, g.shutdown.trans h.shutdown,
    g.gate.trans h.gate, g.diags.trans h.diags⟩

theorem SameCore.touch (s : State) (a : Word) : SameCore s (s.touch a) := by constructor <;> simp

theorem SameCore.emit (s : State) (b : Byte) : SameCore s (s.emit b) := by constructor <;> rfl

theorem putsLoop_sameCore (n : Nat) (a : Word) (s : State) : SameCore s (putsLoop n a s).2 := by
  induction n generalizing a s with
  | zero => exact .refl s
  | succ n ih =>
    simp only [putsLoop]
    split
    · exact .touch s a
    · exact ((SameCore.touch s a).trans (.emit _ _)).trans (ih _ _)

theorem putspLoop_sameCore (n : Nat) (a : Word) (s : State) : SameCore s (putspLoop n a s).2 := by
  induction n generalizing a s with
  | zero => exact .refl s
  | succ n ih =>
    simp only [putspLoop]
    split
    · exact .touch s a
    · split
      · exact (SameCore.touch s a).trans (.emit _ _)
      · exact (((SameCore.touch s a).trans (.emit _ _)).trans (.emit _ _)).trans (ih _ _)

theorem putsLoop_mem_wf (n : Nat) (a : Word) (s : State) (h : s.mem.wf) : (putsLoop n a s).2.mem.wf := by
  induction n generalizing a s with
  | zero => exact h
  | succ n ih =>
    simp only [putsLoop]
    split
    · exact s.touch_mem_wf a h
    · exact ih _ _ (s.touch_mem_wf a h)

theorem putspLoop_mem_wf (n : Nat) (a : Word) (s : State) (h : s.mem.wf) : (putspLoop n a s).2.mem.wf := by
  induction n generalizing a s with
  | zero => exact h
  | succ n ih =>
    simp only [putspLoop]
    split
    · exact s.touch_mem_wf a h
    · split
      · exact s.touch_mem_wf a h
      · exact ih _ _ (s.touch_mem_wf a h)

/-- Everything the end of a string routine can do. -/
theorem stringEnd_eq (start : Word) (p : Bool × State) :
    stringEnd start p = .next (if p.1 then p.2 else p.2.raise (.unterminatedString start)) := by
  obtain ⟨b, s⟩ := p
  cases b <;> rfl

/-- HALT's message, emitted byte by byte, is appended whole. -/
theorem foldl_emit (bs : List Byte) (s : State) : bs.foldl State.emit s = { s with console := s.console ++ bs } := by
  induction bs generalizing s with
  | nil => simp
  | cons b bs ih => simp [ih, State.emit]

/-! ### Stops -/

theorem State.blocked_eq_none (s : State) :
    s.blocked = none ↔ s.fault = none ∧ s.running = true ∧ s.shutdown = false := by
  unfold State.blocked
  cases s.fault <;> cases s.running <;> cases s.shutdown <;> simp

/-- Everything a step can do when a next state results (30_encoding.md R80, R81). -/
theorem step_next {s t : State} (h : step s = .next t) :
    s.blocked = none ∧
      ((s.fetchForbidden = true ∧ t = s.raise (.selfModifyingCode s.pc)) ∨
       (s.fetchForbidden = false ∧ exec (decode s.fetch.1) s.fetch.2 = .next t)) := by
  unfold step at h
  split at h
  · cases h
  · refine ⟨‹_›, ?_⟩
    cases hf : s.fetchForbidden with
    | true => simp only [hf, if_true] at h; exact .inl ⟨rfl, by cases h; rfl⟩
    | false => simp [hf] at h; exact .inr ⟨rfl, h⟩

end Sys2Proof.Machine
end

