-- ==== Sys2Proof/Laws/Exec.lean ====
section
/-! SUPPORT. One inversion lemma per meaning: if it answers a next state, that state is one of these. The shared shape
`Unvalued` is a register operand that holds no value (10_state.md R38). -/

namespace Sys2Proof.Machine

/-- Register `r` holds no value in `u`, and `t` is `u` with its `UnwrittenRegister` raised. -/
def Unvalued (r : RegIdx) (u t : State) : Prop :=
  u.regHasValue r = false ∧ t = u.raise (.unwrittenRegister r u.fetchAddr)

theorem readReg_next_unvalued {s t : State} {r : RegIdx} {k : Word → Result} (h : s.readReg r k = .next t) :
    k (s.reg r) = .next t ∨ Unvalued r s t := by
  rcases State.readReg_next h with ⟨-, h⟩ | ⟨hv, h⟩
  · exact .inl h
  · exact .inr ⟨hv, h⟩

theorem next_inj {s t : State} (h : (.next s : Result) = .next t) : t = s := by
  cases h; rfl

theorem execAddReg_next {dr a b : RegIdx} {s t : State} (h : execAddReg dr a b s = .next t) :
    t = s.define dr (s.reg a + s.reg b) ∨ Unvalued a s t ∨ Unvalued b s t := by
  rcases readReg_next_unvalued h with h | h
  · exact (readReg_next_unvalued h).imp next_inj .inr
  · exact .inr (.inl h)

theorem execAddImm_next {dr a : RegIdx} {imm : Word} {s t : State} (h : execAddImm dr a imm s = .next t) :
    t = s.define dr (s.reg a + imm) ∨ Unvalued a s t :=
  (readReg_next_unvalued h).imp_left next_inj

theorem execAndReg_next {dr a b : RegIdx} {s t : State} (h : execAndReg dr a b s = .next t) :
    t = s.define dr (s.reg a &&& s.reg b) ∨ Unvalued a s t ∨ Unvalued b s t := by
  rcases readReg_next_unvalued h with h | h
  · exact (readReg_next_unvalued h).imp next_inj .inr
  · exact .inr (.inl h)

theorem execAndImm_next {dr a : RegIdx} {imm : Word} {s t : State} (h : execAndImm dr a imm s = .next t) :
    t = s.define dr (s.reg a &&& imm) ∨ Unvalued a s t :=
  (readReg_next_unvalued h).imp_left next_inj

theorem execNot_next {dr a : RegIdx} {s t : State} (h : execNot dr a s = .next t) :
    t = s.define dr (~~~(s.reg a)) ∨ Unvalued a s t :=
  (readReg_next_unvalued h).imp_left next_inj

theorem execLd_next {dr : RegIdx} {off : Word} {s t : State} (h : execLd dr off s = .next t) :
    t = s.loadInto dr (s.pcRel off) :=
  next_inj h

theorem execSt_next {sr : RegIdx} {off : Word} {s t : State} (h : execSt sr off s = .next t) :
    t = s.memWrite (s.pcRel off) (s.reg sr) ∨ Unvalued sr s t :=
  (readReg_next_unvalued h).imp_left next_inj

theorem execLdr_next {dr b : RegIdx} {off : Word} {s t : State} (h : execLdr dr b off s = .next t) :
    t = s.loadInto dr (baseOff (s.reg b) off) ∨ Unvalued b s t :=
  (readReg_next_unvalued h).imp_left next_inj

theorem execStr_next {sr b : RegIdx} {off : Word} {s t : State} (h : execStr sr b off s = .next t) :
    t = s.memWrite (baseOff (s.reg b) off) (s.reg sr) ∨ Unvalued b s t ∨ Unvalued sr s t := by
  rcases readReg_next_unvalued h with h | h
  · exact (readReg_next_unvalued h).imp next_inj .inr
  · exact .inr (.inl h)

theorem execLdi_next {dr : RegIdx} {off : Word} {s t : State} (h : execLdi dr off s = .next t) :
    t = (s.touch (s.pcRel off)).loadInto dr (s.indirect off).1 :=
  next_inj h

theorem execSti_next {sr : RegIdx} {off : Word} {s t : State} (h : execSti sr off s = .next t) :
    t = (s.touch (s.pcRel off)).memWrite (s.indirect off).1 (s.reg sr) ∨ Unvalued sr (s.touch (s.pcRel off)) t :=
  (readReg_next_unvalued h).imp_left next_inj

theorem execLea_next {dr : RegIdx} {off : Word} {s t : State} (h : execLea dr off s = .next t) :
    t = s.define dr (s.pcRel off) :=
  next_inj h

theorem execBr_next {nzp : BitVec 3} {off : Word} {s t : State} (h : execBr nzp off s = .next t) :
    (s.condMatches nzp = true ∧ t = s.setPc (s.pcRel off)) ∨ (s.condMatches nzp = false ∧ t = s) := by
  have h := next_inj h
  cases hc : s.condMatches nzp <;> simp [hc] at h
  · exact .inr ⟨rfl, h⟩
  · exact .inl ⟨rfl, h⟩

theorem execJsr_next {off : Word} {s t : State} (h : execJsr off s = .next t) :
    t = (s.setReg linkReg s.pc).setPc (s.pcRel off) :=
  next_inj h

theorem execJsrr_next {b : RegIdx} {s t : State} (h : execJsrr b s = .next t) :
    (∃ v, t = (s.setReg linkReg s.pc).setPc v ∧
      (s.cfg.jsrrOrder = .linkFirst → v = (s.setReg linkReg s.pc).reg b) ∧
      (s.cfg.jsrrOrder = .baseFirst → v = s.reg b)) ∨
    (s.cfg.jsrrOrder = .linkFirst ∧ Unvalued b (s.setReg linkReg s.pc) t) ∨
    (s.cfg.jsrrOrder = .baseFirst ∧ Unvalued b s t) := by
  unfold execJsrr at h
  cases ho : s.cfg.jsrrOrder <;> simp only [ho] at h
  · rcases readReg_next_unvalued h with h | h
    · exact .inl ⟨_, next_inj h, fun _ => rfl, fun e => (by cases e)⟩
    · exact .inr (.inl ⟨rfl, h⟩)
  · rcases readReg_next_unvalued h with h | h
    · exact .inl ⟨_, next_inj h, fun e => (by cases e), fun _ => rfl⟩
    · exact .inr (.inr ⟨rfl, h⟩)

theorem execRti_next {s t : State} (h : execRti s = .next t) :
    t = s.unsupported (.unsupportedOpcode .rti s.fetchAddr) :=
  next_inj h

theorem execJmp_next {b : RegIdx} {s t : State} (h : execJmp b s = .next t) : t = s.setPc (s.reg b) ∨ Unvalued b s t :=
  (readReg_next_unvalued h).imp_left next_inj

theorem execRes_next {s t : State} (h : execRes s = .next t) :
    t = s.unsupported (.unsupportedOpcode .res s.fetchAddr) :=
  next_inj h

/-! ### TRAP: the routines, each in the state after the link is written -/

theorem trapGetc_next {s t : State} (h : trapGetc s = .next t) :
    ∃ c ks, nextByte s.keys = some (c, ks) ∧ t = ({ s with keys := ks }).define 0#3 (c.setWidth 16) := by
  obtain ⟨c, ks, hk, h⟩ := State.withInput_next h
  exact ⟨c, ks, hk, next_inj h⟩

theorem trapOut_next {s t : State} (h : trapOut s = .next t) : t = s.emit (lowByte (s.reg 0#3)) ∨ Unvalued 0#3 s t :=
  (readReg_next_unvalued h).imp_left next_inj

theorem trapPuts_next {s t : State} (h : trapPuts s = .next t) :
    (∃ found u, SameCore s u ∧ putsLoop 65536 (s.reg 0#3) s = (found, u) ∧
      t = (if found then u else u.raise (.unterminatedString (s.reg 0#3)))) ∨ Unvalued 0#3 s t := by
  rcases readReg_next_unvalued h with h | h
  · rw [stringEnd_eq] at h
    exact .inl ⟨_, _, putsLoop_sameCore 65536 (s.reg 0#3) s, rfl, next_inj h⟩
  · exact .inr h

theorem trapPutsp_next {s t : State} (h : trapPutsp s = .next t) :
    (∃ found u, SameCore s u ∧ putspLoop 65536 (s.reg 0#3) s = (found, u) ∧
      t = (if found then u else u.raise (.unterminatedString (s.reg 0#3)))) ∨ Unvalued 0#3 s t := by
  rcases readReg_next_unvalued h with h | h
  · rw [stringEnd_eq] at h
    exact .inl ⟨_, _, putspLoop_sameCore 65536 (s.reg 0#3) s, rfl, next_inj h⟩
  · exact .inr h

theorem trapIn_next {s t : State} (h : trapIn s = .next t) :
    (s.cfg.inMode = .echo ∧ ∃ c ks, nextByte s.keys = some (c, ks) ∧
      t = (({ s with keys := ks }).emit c).define 0#3 (c.setWidth 16)) ∨
    (s.cfg.inMode = .noop ∧ t = s) := by
  unfold trapIn at h
  cases hm : s.cfg.inMode <;> simp only [hm] at h
  · obtain ⟨c, ks, hk, h⟩ := State.withInput_next h
    exact .inl ⟨rfl, c, ks, hk, next_inj h⟩
  · exact .inr ⟨rfl, next_inj h⟩

theorem trapHalt_next {s t : State} (h : trapHalt s = .next t) :
    t = { s with console := s.console ++ s.cfg.haltMessage, running := false } := by
  have h := next_inj h
  rw [foldl_emit] at h
  exact h

theorem trapUnknown_next {v : Byte} {s t : State} (h : trapUnknown v s = .next t) :
    t = s.unsupported (.unknownTrapVector v s.fetchAddr) :=
  next_inj h

/-- Which routine a vector selects (43_trap.md R151). -/
theorem trapRoutine_cases (v : Byte) :
    (v = 0x20#8 ∧ trapRoutine v = trapGetc) ∨ (v = 0x21#8 ∧ trapRoutine v = trapOut) ∨
    (v = 0x22#8 ∧ trapRoutine v = trapPuts) ∨ (v = 0x23#8 ∧ trapRoutine v = trapIn) ∨
    (v = 0x24#8 ∧ trapRoutine v = trapPutsp) ∨ (v = 0x25#8 ∧ trapRoutine v = trapHalt) ∨
    ((v.toNat < 0x20 ∨ 0x25 < v.toNat) ∧ trapRoutine v = trapUnknown v) := by
  by_cases hin : v.toNat < 0x20 ∨ 0x25 < v.toNat
  · refine .inr (.inr (.inr (.inr (.inr (.inr ⟨hin, ?_⟩)))))
    unfold trapRoutine
    split <;> first | rfl | omega
  · have hv : v.toNat = 0x20 ∨ v.toNat = 0x21 ∨ v.toNat = 0x22 ∨ v.toNat = 0x23 ∨ v.toNat = 0x24 ∨ v.toNat = 0x25 := by
      omega
    have heq : ∀ n : Nat, n < 256 → v.toNat = n → v = BitVec.ofNat 8 n := fun n hn e =>
      BitVec.eq_of_toNat_eq (by simp [e]; omega)
    rcases hv with e | e | e | e | e | e <;> have := heq _ (by decide) e <;> subst this
    · exact .inl ⟨rfl, rfl⟩
    · exact .inr (.inl ⟨rfl, rfl⟩)
    · exact .inr (.inr (.inl ⟨rfl, rfl⟩))
    · exact .inr (.inr (.inr (.inl ⟨rfl, rfl⟩)))
    · exact .inr (.inr (.inr (.inr (.inl ⟨rfl, rfl⟩))))
    · exact .inr (.inr (.inr (.inr (.inr (.inl ⟨rfl, rfl⟩)))))

end Sys2Proof.Machine
end

