-- ==== Sys2Proof/Laws/PerInstr.lean ====
section
/-! SUPPORT. Laws said of every instruction, one lemma per constructor. Family `TableRow`: the encoder's word is covered
by the instruction's own row of the opcode table, and that row is in the table (30_encoding.md R77, R78). -/

namespace Sys2Proof.Laws.TableRow

def Statement (i : Instr) : Prop := i.row ∈ opcodeTable ∧ i.row.covers (encode i) = true

/-- Two words with the same bits agree under a mask: the form every case below takes. -/
theorem covers_of_bits (r : OpcodeRow) (w : Word)
    (h : ∀ k < 16, (w.getLsbD k && r.mask.getLsbD k) = r.pattern.getLsbD k) : r.covers w = true := by
  simp only [OpcodeRow.covers, beq_iff_eq]
  exact BitVec.eq_of_getLsbD_eq fun k hk => by rw [BitVec.getLsbD_and]; exact h k hk

theorem br (nzp : BitVec 3) (off9 : Word) : Statement (.br nzp off9) := by
  refine ⟨List.elem_iff.mp rfl, covers_of_bits _ _ fun k hk => ?_⟩
  simp only [encode, encBr, Instr.row, BitVec.getLsbD_append, BitVec.getLsbD_setWidth]
  interval_cases k <;> simp (decide := true)

theorem addReg (dr sr1 sr2 : RegIdx) : Statement (.addReg dr sr1 sr2) := by
  refine ⟨List.elem_iff.mp rfl, covers_of_bits _ _ fun k hk => ?_⟩
  simp only [encode, encRRR, Instr.row, BitVec.getLsbD_append]
  interval_cases k <;> simp (decide := true)

theorem addImm (dr sr1 : RegIdx) (imm5 : Word) : Statement (.addImm dr sr1 imm5) := by
  refine ⟨List.elem_iff.mp rfl, covers_of_bits _ _ fun k hk => ?_⟩
  simp only [encode, encRRI, Instr.row, BitVec.getLsbD_append, BitVec.getLsbD_setWidth]
  interval_cases k <;> simp (decide := true)

theorem ld (dr : RegIdx) (off9 : Word) : Statement (.ld dr off9) := by
  refine ⟨List.elem_iff.mp rfl, covers_of_bits _ _ fun k hk => ?_⟩
  simp only [encode, encPC9, Instr.row, BitVec.getLsbD_append, BitVec.getLsbD_setWidth]
  interval_cases k <;> simp (decide := true)

theorem st (sr : RegIdx) (off9 : Word) : Statement (.st sr off9) := by
  refine ⟨List.elem_iff.mp rfl, covers_of_bits _ _ fun k hk => ?_⟩
  simp only [encode, encPC9, Instr.row, BitVec.getLsbD_append, BitVec.getLsbD_setWidth]
  interval_cases k <;> simp (decide := true)

theorem jsr (off11 : Word) : Statement (.jsr off11) := by
  refine ⟨List.elem_iff.mp rfl, covers_of_bits _ _ fun k hk => ?_⟩
  simp only [encode, encJ11, Instr.row, BitVec.getLsbD_append, BitVec.getLsbD_setWidth]
  interval_cases k <;> simp (decide := true)

theorem jsrr (baseR : RegIdx) : Statement (.jsrr baseR) := by
  refine ⟨List.elem_iff.mp rfl, covers_of_bits _ _ fun k hk => ?_⟩
  simp only [encode, encBase, Instr.row, BitVec.getLsbD_append]
  interval_cases k <;> simp (decide := true)

theorem andReg (dr sr1 sr2 : RegIdx) : Statement (.andReg dr sr1 sr2) := by
  refine ⟨List.elem_iff.mp rfl, covers_of_bits _ _ fun k hk => ?_⟩
  simp only [encode, encRRR, Instr.row, BitVec.getLsbD_append]
  interval_cases k <;> simp (decide := true)

theorem andImm (dr sr1 : RegIdx) (imm5 : Word) : Statement (.andImm dr sr1 imm5) := by
  refine ⟨List.elem_iff.mp rfl, covers_of_bits _ _ fun k hk => ?_⟩
  simp only [encode, encRRI, Instr.row, BitVec.getLsbD_append, BitVec.getLsbD_setWidth]
  interval_cases k <;> simp (decide := true)

theorem ldr (dr baseR : RegIdx) (off6 : Word) : Statement (.ldr dr baseR off6) := by
  refine ⟨List.elem_iff.mp rfl, covers_of_bits _ _ fun k hk => ?_⟩
  simp only [encode, encB6, Instr.row, BitVec.getLsbD_append, BitVec.getLsbD_setWidth]
  interval_cases k <;> simp (decide := true)

theorem str (sr baseR : RegIdx) (off6 : Word) : Statement (.str sr baseR off6) := by
  refine ⟨List.elem_iff.mp rfl, covers_of_bits _ _ fun k hk => ?_⟩
  simp only [encode, encB6, Instr.row, BitVec.getLsbD_append, BitVec.getLsbD_setWidth]
  interval_cases k <;> simp (decide := true)

theorem rti : Statement .rti := ⟨List.elem_iff.mp rfl, rfl⟩

theorem notReg (dr sr : RegIdx) : Statement (.notReg dr sr) := by
  refine ⟨List.elem_iff.mp rfl, covers_of_bits _ _ fun k hk => ?_⟩
  simp only [encode, encUN, Instr.row, BitVec.getLsbD_append]
  interval_cases k <;> simp (decide := true)

theorem ldi (dr : RegIdx) (off9 : Word) : Statement (.ldi dr off9) := by
  refine ⟨List.elem_iff.mp rfl, covers_of_bits _ _ fun k hk => ?_⟩
  simp only [encode, encPC9, Instr.row, BitVec.getLsbD_append, BitVec.getLsbD_setWidth]
  interval_cases k <;> simp (decide := true)

theorem sti (sr : RegIdx) (off9 : Word) : Statement (.sti sr off9) := by
  refine ⟨List.elem_iff.mp rfl, covers_of_bits _ _ fun k hk => ?_⟩
  simp only [encode, encPC9, Instr.row, BitVec.getLsbD_append, BitVec.getLsbD_setWidth]
  interval_cases k <;> simp (decide := true)

theorem jmp (baseR : RegIdx) : Statement (.jmp baseR) := by
  refine ⟨List.elem_iff.mp rfl, covers_of_bits _ _ fun k hk => ?_⟩
  simp only [encode, encBase, Instr.row, BitVec.getLsbD_append]
  interval_cases k <;> simp (decide := true)

theorem res : Statement .res := ⟨List.elem_iff.mp rfl, rfl⟩

theorem lea (dr : RegIdx) (off9 : Word) : Statement (.lea dr off9) := by
  refine ⟨List.elem_iff.mp rfl, covers_of_bits _ _ fun k hk => ?_⟩
  simp only [encode, encPC9, Instr.row, BitVec.getLsbD_append, BitVec.getLsbD_setWidth]
  interval_cases k <;> simp (decide := true)

theorem trap (vect : Byte) : Statement (.trap vect) := by
  refine ⟨List.elem_iff.mp rfl, covers_of_bits _ _ fun k hk => ?_⟩
  simp only [encode, encT, Instr.row, BitVec.getLsbD_append]
  interval_cases k <;> simp (decide := true)

/-- The family, for every instruction. -/
theorem all (i : Instr) : Statement i := by
  cases i
  case br => exact br _ _
  case addReg => exact addReg _ _ _
  case addImm => exact addImm _ _ _
  case ld => exact ld _ _
  case st => exact st _ _
  case jsr => exact jsr _
  case jsrr => exact jsrr _
  case andReg => exact andReg _ _ _
  case andImm => exact andImm _ _ _
  case ldr => exact ldr _ _ _
  case str => exact str _ _ _
  case rti => exact rti
  case notReg => exact notReg _ _
  case ldi => exact ldi _ _
  case sti => exact sti _ _
  case jmp => exact jmp _
  case res => exact res
  case lea => exact lea _ _
  case trap => exact trap _

end Sys2Proof.Laws.TableRow
end

