-- ==== Sys2Proof/Laws/Run.lean ====
section
/-! SUPPORT. Runs: what a host action leaves alone, everything an instruction and a step can answer, and that an ended block
stays ended through the host's actions (70_reset_and_hazards.md R206, R209, R210). -/

namespace Sys2Proof.Machine

/-! ### Host actions, field by field -/

@[simp] theorem State.host_cfg (s : State) (a : HostAction) : (s.host a).cfg = s.cfg := by cases a <;> rfl
@[simp] theorem State.host_regs (s : State) (a : HostAction) : (s.host a).regs = s.regs := by cases a <;> rfl
@[simp] theorem State.host_hasValue (s : State) (a : HostAction) : (s.host a).hasValue = s.hasValue := by cases a <;> rfl
@[simp] theorem State.host_pc (s : State) (a : HostAction) : (s.host a).pc = s.pc := by cases a <;> rfl
@[simp] theorem State.host_cond (s : State) (a : HostAction) : (s.host a).cond = s.cond := by cases a <;> rfl
@[simp] theorem State.host_running (s : State) (a : HostAction) : (s.host a).running = s.running := by cases a <;> rfl
@[simp] theorem State.host_fault (s : State) (a : HostAction) : (s.host a).fault = s.fault := by cases a <;> rfl
@[simp] theorem State.host_console (s : State) (a : HostAction) : (s.host a).console = s.console := by cases a <;> rfl
@[simp] theorem State.host_diags (s : State) (a : HostAction) : (s.host a).diags = s.diags := by cases a <;> rfl

theorem State.host_shutdown (s : State) (a : HostAction) (h : s.shutdown = true) : (s.host a).shutdown = true := by
  cases a <;> first | rfl | exact h

/-! ### What an instruction and a step can answer -/

/-- `r` is a next state, or the wait for input. -/
def NextOrWait (r : Result) : Prop := (∃ t, r = .next t) ∨ r = .fault .awaitingInput

theorem NextOrWait.next (t : State) : NextOrWait (.next t) := .inl ⟨t, rfl⟩

theorem NextOrWait.readReg {s : State} {r : RegIdx} {k : Word → Result} (h : ∀ v, NextOrWait (k v)) :
    NextOrWait (s.readReg r k) := by
  unfold State.readReg
  split
  · exact h _
  · exact .next _

theorem NextOrWait.withInput {s : State} {k : Byte → State → Result} (h : ∀ c t, NextOrWait (k c t)) :
    NextOrWait (s.withInput k) := by
  unfold State.withInput
  split
  · exact h _ _
  · exact .inr rfl

theorem trapRoutine_nextOrWait (v : Byte) (s : State) : NextOrWait (trapRoutine v s) := by
  have ends : ∀ a p, NextOrWait (stringEnd a p) := fun a p => stringEnd_eq a p ▸ .next _
  rcases trapRoutine_cases v with ⟨-, h⟩ | ⟨-, h⟩ | ⟨-, h⟩ | ⟨-, h⟩ | ⟨-, h⟩ | ⟨-, h⟩ | ⟨-, h⟩ <;> rw [h]
  · exact .withInput fun _ _ => .next _
  · exact .readReg fun _ => .next _
  · exact .readReg fun _ => ends _ _
  · unfold trapIn
    split
    · exact .withInput fun _ _ => .next _
    · exact .next _
  · exact .readReg fun _ => ends _ _
  · exact .next _
  · exact .next _

/-- No instruction refuses, and none stops but to wait for input (70_reset_and_hazards.md R213). -/
theorem exec_nextOrWait (i : Instr) (s : State) : NextOrWait (exec i s) := by
  cases i with
  | addReg _ _ _ => exact .readReg fun _ => .readReg fun _ => .next _
  | andReg _ _ _ => exact .readReg fun _ => .readReg fun _ => .next _
  | str _ _ _ => exact .readReg fun _ => .readReg fun _ => .next _
  | addImm _ _ _ => exact .readReg fun _ => .next _
  | andImm _ _ _ => exact .readReg fun _ => .next _
  | notReg _ _ => exact .readReg fun _ => .next _
  | st _ _ => exact .readReg fun _ => .next _
  | ldr _ _ _ => exact .readReg fun _ => .next _
  | sti _ _ => exact .readReg fun _ => .next _
  | jmp _ => exact .readReg fun _ => .next _
  | jsrr _ =>
    show NextOrWait (execJsrr _ s)
    unfold execJsrr
    split <;> exact .readReg fun _ => .next _
  | trap v => exact trapRoutine_nextOrWait v _
  | br _ _ => exact .next _
  | ld _ _ => exact .next _
  | ldi _ _ => exact .next _
  | lea _ _ => exact .next _
  | jsr _ => exact .next _
  | rti => exact .next _
  | res => exact .next _

theorem step_of_blocked {s : State} {f : Fault} (h : s.blocked = some f) : step s = .fault f := by
  simp [step, h]

theorem step_of_not_blocked {s : State} (h : s.blocked = none) : NextOrWait (step s) := by
  simp only [step, h]
  split
  · exact .next _
  · exact exec_nextOrWait _ _

/-- A step stops for good exactly when R81 forbids it. -/
theorem step_fault_iff (s : State) (f : Fault) (hf : f ≠ .awaitingInput) : step s = .fault f ↔ s.blocked = some f := by
  refine ⟨fun h => ?_, step_of_blocked⟩
  cases hb : s.blocked with
  | none =>
    rcases step_of_not_blocked hb with ⟨t, ht⟩ | ht <;> rw [h] at ht <;> cases ht
    exact absurd rfl hf
  | some g =>
    rw [step_of_blocked hb] at h
    cases h
    rfl

/-! ### An ended block stays ended -/

theorem State.blocked_ne_awaitingInput (s : State) : s.blocked ≠ some .awaitingInput := by
  unfold State.blocked
  cases s.fault <;> cases s.running <;> cases s.shutdown <;> simp

theorem State.host_blocked {s : State} {f : Fault} (a : HostAction) (h : s.blocked = some f) :
    (s.host a).blocked = some f := by
  have hs : s.shutdown = true → (s.host a).shutdown = true := s.host_shutdown a
  unfold State.blocked at *
  simp only [host_fault, host_running]
  cases hf : s.fault <;> simp only [hf] at h ⊢
  · cases hr : s.running <;> simp [hr] at h ⊢
    · exact h
    · obtain ⟨hd, rfl⟩ := h
      simp [hs hd]
  · exact h

theorem foldl_host_blocked {s : State} {f : Fault} (as : List HostAction) (h : s.blocked = some f) :
    (as.foldl State.host s).blocked = some f := by
  induction as generalizing s with
  | nil => exact h
  | cons a as ih => exact ih (State.host_blocked a h)

theorem State.turn_of_blocked {s : State} {f : Fault} (h : s.blocked = some f) : s.turn = s := by
  simp [State.turn, step_of_blocked h]

/-- An end that a turn shows, every later turn shows (R81, R209). -/
theorem runAt_blocked {h : Schedule} {s : State} {n : Nat} {f : Fault} (hb : (runAt h s n).blocked = some f) (m : Nat)
    (hm : n ≤ m) : (runAt h s m).blocked = some f := by
  induction hm with
  | refl => exact hb
  | step _ ih => exact foldl_host_blocked _ ((State.turn_of_blocked ih).symm ▸ ih)

end Sys2Proof.Machine
end

