-- ==== Sys2Proof/Tests/Slice0.lean ====
section
/-! SUPPORT. Tests and witnesses. Expected values are the spec's: the vectors of 95_test_vectors.md (named in each test's
comment), the worked examples of the rules, and words written out from the formats of 30_encoding.md R73. Each test is one
step or one small function; a `witness_` theorem shows a state and operands that meet the hypotheses of a statement. -/

namespace Sys2Proof.Tests

open Sys2Proof.Machine

/-! ### Helpers -/

/-- The state after reset with `words` loaded, some registers set and the input source scripted. -/
def scene (cfg : Config) (pc : Word) (words : List (Word × Word)) (regs : List (RegIdx × Word) := [])
    (keys : List (Option Byte) := []) : State :=
  let s := regs.foldl (fun s p => s.setReg p.1 p.2) (State.resetWith cfg pc)
  { s with mem := words.foldl (fun m p => m.writeWord p.1 p.2) s.mem, keys := keys }

/-- The outcome is a next state of which `p` holds. -/
def shows (r : Result) (p : State → Bool) : Bool :=
  match r with
  | .next s => p s
  | .fault _ => false
  | .refused _ => false

def Config.goOn : Config := { Config.default with unsupportedPolicy := .goOn }
def Config.coherent : Config := { Config.default with smcPolicy := .coherent }
def Config.noop : Config := { Config.default with inMode := .noop }
def Config.baseFirst : Config := { Config.default with jsrrOrder := .baseFirst }
def Config.unvalued : Config := { Config.default with resetGpr := .undefined }

/-! ### WellFormed: each check refuses an ill-formed instruction, and admits the ends of its range -/

theorem test_wf_br : (Instr.br 7 0x0100).wf = false ∧ (Instr.br 7 0xFF00).wf = true ∧ (Instr.br 7 0x00FF).wf = true := by decide
theorem test_wf_addImm : (Instr.addImm 0 0 0x0010).wf = false ∧ (Instr.addImm 0 0 0xFFF0).wf = true := by decide
theorem test_wf_ld : (Instr.ld 0 0xFEFF).wf = false ∧ (Instr.ld 0 0xFF00).wf = true := by decide
theorem test_wf_st : (Instr.st 0 0x0100).wf = false ∧ (Instr.st 0 0x00FF).wf = true := by decide
theorem test_wf_jsr : (Instr.jsr 0x0400).wf = false ∧ (Instr.jsr 0xFBFF).wf = false ∧ (Instr.jsr 0xFC00).wf = true := by decide
theorem test_wf_andImm : (Instr.andImm 0 0 0xFFEF).wf = false ∧ (Instr.andImm 0 0 0x000F).wf = true := by decide
theorem test_wf_ldr : (Instr.ldr 0 0 0x0020).wf = false ∧ (Instr.ldr 0 0 0xFFE0).wf = true := by decide
theorem test_wf_str : (Instr.str 0 0 0xFFDF).wf = false ∧ (Instr.str 0 0 0x001F).wf = true := by decide
theorem test_wf_ldi : (Instr.ldi 0 0x0100).wf = false := by decide
theorem test_wf_sti : (Instr.sti 0 0xFEFF).wf = false := by decide
theorem test_wf_lea : (Instr.lea 0 0x8000).wf = false := by decide

/-! ### Decode: one word per constructor, written out from its format (R73); don't-care bits set in some (R76) -/

theorem test_decode_br : decode 0b0000010000000101#16 = .br 0b010#3 5#16 := by decide
theorem test_decode_addReg : decode 0b0001010000011001#16 = .addReg 2#3 0#3 1#3 := by decide
theorem test_decode_addImm : decode 0b0001011011110000#16 = .addImm 3#3 3#3 0xFFF0#16 := by decide
theorem test_decode_ld : decode 0b0010001100000000#16 = .ld 1#3 0xFF00#16 := by decide
theorem test_decode_st : decode 0b0011001000010000#16 = .st 1#3 0x0010#16 := by decide
theorem test_decode_jsr : decode 0b0100101111111111#16 = .jsr 0x03FF#16 := by decide
theorem test_decode_jsrr : decode 0b0100011010111111#16 = .jsrr 2#3 := by decide
theorem test_decode_andReg : decode 0b0101010000000001#16 = .andReg 2#3 0#3 1#3 := by decide
theorem test_decode_andImm : decode 0b0101110110101111#16 = .andImm 6#3 6#3 0x000F#16 := by decide
theorem test_decode_ldr : decode 0b0110010011111111#16 = .ldr 2#3 3#3 0xFFFF#16 := by decide
theorem test_decode_str : decode 0b0111010011100000#16 = .str 2#3 3#3 0xFFE0#16 := by decide
theorem test_decode_rti : decode 0b1000111111111111#16 = .rti := by decide
theorem test_decode_not : decode 0b1001001000000000#16 = .notReg 1#3 0#3 := by decide
theorem test_decode_ldi : decode 0b1010100111111110#16 = .ldi 4#3 0xFFFE#16 := by decide
theorem test_decode_sti : decode 0b1011100000000101#16 = .sti 4#3 0x0005#16 := by decide
theorem test_decode_jmp : decode 0b1100111111111111#16 = .jmp 7#3 := by decide
theorem test_decode_res : decode 0b1101000000000000#16 = .res := by decide
theorem test_decode_lea : decode 0b1110101100000000#16 = .lea 5#3 0xFF00#16 := by decide
theorem test_decode_trap : decode 0b1111111100100101#16 = .trap 0x25#8 := by decide

theorem test_decode_rejects_two_words : decodeBits 32 0 = .error (.notOneWord 32) := rfl
/-- R70: no compressed form; the lengths next to one word. -/
theorem test_decode_rejects_short : decodeBits 8 0x25 = .error (.notOneWord 8) ∧
    decodeBits 15 0 = .error (.notOneWord 15) ∧ decodeBits 17 0 = .error (.notOneWord 17) := ⟨rfl, rfl, rfl⟩
theorem test_decode_rejects_high_bits : decodeBits 16 0x10000 = .error .bitsAboveWord := rfl
theorem test_decodeTableWord : decodeTableWord 16 0xF025 = some (.trap 0x25#8) := by decide

/-- The words of R85 and of the worked examples. -/
theorem test_encode :
    encode (.jmp 7) = 0xC1C0#16 ∧ encode (.trap 0x25) = 0xF025#16 ∧ encode (.notReg 1 0) = 0x923F#16 ∧
    encode (.addImm 3 3 15) = 0x16EF#16 ∧ encode (.jsrr 2) = 0x4080#16 ∧ encode (.str 2 3 31) = 0x74DF#16 ∧
    encode (.br 7 0xFF00) = 0x0F00#16 ∧ encode (.jsr 0xFC00) = 0x4C00#16 ∧ encode (.ldi 4 0xFFFE) = 0xA9FE#16 := by decide

/-- 95_test_vectors.md S1. -/
theorem test_sext :
    sext 5 0x10 = 0xFFF0#16 ∧ sext 5 0xF = 0x000F#16 ∧ sext 6 0x20 = 0xFFE0#16 ∧ sext 9 0x100 = 0xFF00#16 ∧
    sext 11 0x400 = 0xFC00#16 ∧ sext 1 1 = 0xFFFF#16 ∧ sext 16 0x8000 = 0x8000#16 := by decide

/-! ### Operate: V1 -/

/-- OP1: signed overflow is not recorded. -/
theorem test_add_wraps_to_negative :
    shows (step (scene .default 0x3000 [(0x3000, 0x1401)] [(0, 0x7FFF), (1, 1)]))
      (fun s => s.reg 2 == 0x8000#16 && s.cond == 0b100#3 && s.pc == 0x3001#16) = true := by decide
/-- OP2: the carry is lost. -/
theorem test_add_wraps_to_zero :
    shows (step (scene .default 0x3000 [(0x3000, 0x1401)] [(0, 0xFFFF), (1, 1)]))
      (fun s => s.reg 2 == 0#16 && s.cond == 0b010#3) = true := by decide
/-- OP6. -/
theorem test_addImm_negative :
    shows (step (scene .default 0x3000 [(0x3000, 0x16F0)] [(3, 5)]))
      (fun s => s.reg 3 == 0xFFF5#16 && s.cond == 0b100#3) = true := by decide
/-- OP10. -/
theorem test_and : shows (step (scene .default 0x3000 [(0x3000, 0x5401)] [(0, 0xF0F0), (1, 0x0FF0)]))
    (fun s => s.reg 2 == 0x00F0#16 && s.cond == 0b001#3) = true := by decide
/-- OP13. -/
theorem test_andImm : shows (step (scene .default 0x3000 [(0x3000, 0x503F)] [(0, 0x8001)]))
    (fun s => s.reg 0 == 0x8001#16 && s.cond == 0b100#3) = true := by decide
/-- OP17: source and destination the same. -/
theorem test_not : shows (step (scene .default 0x3000 [(0x3000, 0x903F)] [(0, 0x8000)]))
    (fun s => s.reg 0 == 0x7FFF#16 && s.cond == 0b001#3) = true := by decide

/-! ### Data movement: V2, V5 -/

/-- DM3. -/
theorem test_ld : shows (step (scene .default 0x3000 [(0x3000, 0x2300), (0x2F01, 0x0042)]))
    (fun s => s.reg 1 == 0x0042#16 && s.cond == 0b001#3) = true := by decide
/-- DM4. -/
theorem test_st : shows (step (scene .default 0x3000 [(0x3000, 0x3210)] [(1, 0x1234)]))
    (fun s => s.mem.readWord 0x3011 == 0x1234#16 && s.cond == 0b010#3 && s.written == [0x3011]) = true := by decide
/-- DM7: the address wraps. -/
theorem test_ldr : shows (step (scene .default 0x3000 [(0x3000, 0x64DF), (0x000F, 0x8000)] [(3, 0xFFF0)]))
    (fun s => s.reg 2 == 0x8000#16 && s.cond == 0b100#3) = true := by decide
/-- DM9. -/
theorem test_str : shows (step (scene .default 0x3000 [(0x3000, 0x74E0)] [(2, 1), (3, 0x0010)]))
    (fun s => s.mem.readWord 0xFFF0 == 0x0001#16) = true := by decide
/-- DM10. -/
theorem test_ldi : shows (step (scene .default 0x3000 [(0x3000, 0xA9FE), (0x2FFF, 0x4000), (0x4000, 0xFFFF)]))
    (fun s => s.reg 4 == 0xFFFF#16 && s.cond == 0b100#3) = true := by decide
/-- MM1: the pointer is KBSR_ADDR and a key waits. -/
theorem test_ldi_keyboard :
    shows (step (scene .default 0x3000 [(0x3000, 0xA000), (0x3001, 0xFE00)] [] [some 0x41]))
      (fun s => s.reg 0 == 0x8000#16 && s.mem.readWord 0xFE02 == 0x0041#16 && s.keys == []) = true := by decide
/-- DM11. -/
theorem test_sti : shows (step (scene .default 0x3000 [(0x3000, 0xB805), (0x3006, 0x5000)] [(4, 0x00AA)]))
    (fun s => s.mem.readWord 0x5000 == 0x00AA#16) = true := by decide
/-- DM15: the address wraps below zero, and LEA sets the flags. -/
theorem test_lea : shows (step (scene .default 0x0000 [(0x0000, 0xEB00)]))
    (fun s => s.reg 5 == 0xFF01#16 && s.cond == 0b100#3 && s.pc == 0x0001#16) = true := by decide
/-- MM5: reading the data word polls nothing. -/
theorem test_keyboard_data_read :
    shows (step (scene .default 0x3000 [(0x3000, 0x6000), (0xFE02, 0x0041)] [(0, 0xFE02)] [some 0x7A]))
      (fun s => s.reg 0 == 0x0041#16 && s.keys == [some 0x7A]) = true := by decide

/-! ### Control transfer: V3 -/

/-- CT7: taken, the target wraps. -/
theorem test_br_taken : shows (step (scene .default 0xFFF0 [(0xFFF0, 0x0EFF)])) (fun s => s.pc == 0x00F0#16) = true := by decide
/-- CT4: not taken on Z. -/
theorem test_br_not_taken : shows (step (scene .default 0x3000 [(0x3000, 0x0A05)])) (fun s => s.pc == 0x3001#16) = true := by decide
/-- CT11. -/
theorem test_jsr : shows (step (scene .default 0x3000 [(0x3000, 0x4C00)]))
    (fun s => s.reg 7 == 0x3001#16 && s.pc == 0x2C01#16) = true := by decide
/-- CT14 and CT15: `JSRR R7` in both orders. -/
theorem test_jsrr_linkFirst : shows (step (scene .default 0x3000 [(0x3000, 0x41C0)] [(7, 0x5000)]))
    (fun s => s.reg 7 == 0x3001#16 && s.pc == 0x3001#16) = true := by decide
theorem test_jsrr_baseFirst : shows (step (scene Config.baseFirst 0x3000 [(0x3000, 0x41C0)] [(7, 0x5000)]))
    (fun s => s.reg 7 == 0x3001#16 && s.pc == 0x5000#16) = true := by decide
/-- CT18. -/
theorem test_ret : shows (step (scene .default 0x3000 [(0x3000, 0xC1C0)] [(7, 0x3456)])) (fun s => s.pc == 0x3456#16) = true := by decide
/-- CT20 and CT21. -/
theorem test_rti_fault : shows (step (scene .default 0x3000 [(0x3000, 0x8000)]))
    (fun s => s.pc == 0x3001#16 && s.fault == some (.unsupportedOpcode .rti 0x3000) &&
      s.diags == [.unsupportedOpcode .rti 0x3000]) = true := by decide
theorem test_rti_goOn : shows (step (scene Config.goOn 0x3000 [(0x3000, 0x8000)]))
    (fun s => s.pc == 0x3001#16 && s.fault == none && s.diags == [.unsupportedOpcode .rti 0x3000]) = true := by decide
/-- CT22 and CT23. -/
theorem test_res_fault : shows (step (scene .default 0x3000 [(0x3000, 0xD000)]))
    (fun s => s.fault == some (.unsupportedOpcode .res 0x3000)) = true := by decide
theorem test_res_goOn : shows (step (scene Config.goOn 0x3000 [(0x3000, 0xDFFF)]))
    (fun s => s.pc == 0x3001#16 && s.fault == none) = true := by decide

/-! ### TRAP: V4 (TR numbers); one test for each routine -/

/-- TR3. -/
theorem test_getc : shows (step (scene .default 0x3000 [(0x3000, 0xF020)] [] [none, some 0xFF]))
    (fun s => s.reg 0 == 0x00FF#16 && s.reg 7 == 0x3001#16 && s.cond == 0b001#3 && s.console == []) = true := by decide
/-- R213: no byte, no step. -/
theorem test_getc_waits : exec (.trap 0x20) (scene .default 0x3001 [] [] [none]) = .fault .awaitingInput := by rfl
/-- TR4. -/
theorem test_out : shows (step (scene .default 0x3000 [(0x3000, 0xF021)] [(0, 0x1241)]))
    (fun s => s.console == [0x41#8] && s.reg 0 == 0x1241#16 && s.reg 7 == 0x3001#16) = true := by decide
/-- TR7: a non-zero word with a zero low byte does not end the string. -/
theorem test_puts :
    shows (step (scene .default 0x3000 [(0x3000, 0xF022), (0x4000, 0x4142), (0x4001, 0x0100)] [(0, 0x4000)]))
      (fun s => s.console == [0x42#8, 0x00#8] && s.fault == none) = true := by decide
/-- TR8 and TR9. -/
theorem test_in_echo : shows (step (scene .default 0x3000 [(0x3000, 0xF023)] [] [some 0x7A]))
    (fun s => s.reg 0 == 0x007A#16 && s.console == [0x7A#8] && s.cond == 0b001#3) = true := by decide
theorem test_in_noop : shows (step (scene Config.noop 0x3000 [(0x3000, 0xF023)] [] [some 0x7A]))
    (fun s => s.reg 0 == 0#16 && s.reg 7 == 0x3001#16 && s.keys == [some 0x7A]) = true := by decide
/-- TR10. -/
theorem test_putsp :
    shows (step (scene .default 0x3000 [(0x3000, 0xF024), (0x4000, 0x6548), (0x4001, 0x6C6C), (0x4002, 0x006F)]
      [(0, 0x4000)])) (fun s => s.console == [0x48#8, 0x65#8, 0x6C#8, 0x6C#8, 0x6F#8]) = true := by decide
/-- TR18: HALT with don't-care bits set. -/
theorem test_halt : shows (step (scene .default 0x3000 [(0x3000, 0xFF25)]))
    (fun s => !s.running && s.reg 7 == 0x3001#16 && s.pc == 0x3001#16) = true := by decide
/-- TR16. -/
theorem test_unknown_vector : shows (step (scene .default 0x3000 [(0x3000, 0xF026)]))
    (fun s => s.fault == some (.unknownTrapVector 0x26 0x3000) && s.reg 7 == 0x3001#16) = true := by decide

/-! ### Faults, policies, loading, host: V6, S6 -/

/-- FL1's second step, and FL2's. -/
theorem test_smc_fault :
    shows (step { scene .default 0x3001 [(0x3001, 0x1021)] with written := [0x3001] })
      (fun s => s.fault == some (.selfModifyingCode 0x3001) && s.pc == 0x3001#16) = true := by decide
theorem test_smc_coherent :
    shows (step { scene Config.coherent 0x3001 [(0x3001, 0x1021)] [(0, 0x1021)] with written := [0x3001] })
      (fun s => s.reg 0 == 0x1022#16 && s.fault == none) = true := by decide
/-- FL9: the link is written before OUT reads R0. -/
theorem test_unwritten_register : shows (step (scene Config.unvalued 0x3000 [(0x3000, 0xF021)]))
    (fun s => s.fault == some (.unwrittenRegister 0 0x3000) && s.reg 7 == 0x3001#16 && s.console == []) = true := by decide
/-- FL10: with `link_first`, `JSRR R7` reads the link just written. -/
theorem test_unwritten_jsrr : shows (step (scene Config.unvalued 0x3000 [(0x3000, 0x41C0)]))
    (fun s => s.fault == none && s.pc == 0x3001#16) = true := by decide
/-- LD1. -/
theorem test_load : (match launch .default (some [0x30, 0x00, 0x12, 0x34, 0xAB, 0xCD]) with
    | .ok s => s.pc == 0x3000#16 && s.mem.readWord 0x3000 == 0x1234#16 && s.mem.readWord 0x3001 == 0xABCD#16
    | .error _ => false) = true := by decide
/-- LD2, LD3, LD5. -/
theorem test_load_errors : launch .default (some [0x30]) = .error .truncatedHeader ∧
    launch .default (some [0x30, 0x00, 0x12]) = .error .oddByteCount ∧
    launch .default (some [0xFF, 0xFF, 0x12, 0x34, 0x56, 0x78]) = .error .tooLarge := ⟨rfl, rfl, rfl⟩
/-- LD6: `State.reset` is the state after loading the image that holds only the origin 0x3000. -/
theorem test_reset_is_bare_launch : launch .default (some [0x30, 0x00]) = .ok State.reset := rfl
/-- FL13 and FL15: the two lanes. -/
theorem test_patch : ((scene .default 0x3000 [(0x3001, 0x1000)]).host (.patch 0x3001 .low 0x21)).mem.readWord 0x3001 = 0x1021#16 ∧
    ((scene .default 0x3000 [(0x3001, 0x1021)]).host (.patch 0x3001 .high 0x12)).mem.readWord 0x3001 = 0x1221#16 := by decide
/-- A stored zero leaves no cell: the canonical form. -/
theorem test_memory_canonical : (Memory.writeWord [] 5 0x00FF).writeWord 5 0x0000 = [] := by decide

/-! ### Witnesses: the hypotheses of each statement can be met

A step or execution witness gives the next state by evaluation. -/

/-- A state whose registers all hold a value, with the input source and the diagnostics in use. -/
def base : State := scene .default 0x3001 [(0x3000, 0x1021), (0x4000, 0x0048)] [(1, 0x4000), (2, 0xFE00)] [none, some 0x41]

/-- The same under `RESET_GPR = undefined`, with R1 alone written. -/
def bare : State := scene Config.unvalued 0x3001 [] [(1, 0x4000)]

theorem witness_LaunchPlacesEveryImageWord : (0xFFFF#16).toNat + [0x1234#16].length ≤ 65536 := by decide
theorem witness_LaunchLeavesTheRestZero :
    (∃ s, launch .default (some (imageBytes 0xFFFF#16 [0x1234#16])) = .ok s) ∧
    ∀ i < [0x1234#16].length, 0x0000#16 ≠ 0xFFFF#16 + BitVec.ofNat 16 i := ⟨⟨_, rfl⟩, by decide⟩
theorem witness_LaunchRefusesExactlyBadImages :
    ([] : List Byte).length < 2 ∧ [0x30#8].length < 2 ∧ 2 ≤ [0x30#8, 0x00#8, 0x12#8].length ∧
    [0x30#8, 0x00#8, 0x12#8].length % 2 = 1 ∧ 65536 < (0xFFFF#16).toNat + [0x1234#16, 0x5678#16].length ∧
    (0xFFFF#16).toNat + [0x1234#16].length ≤ 65536 ∧ [0x30#8, 0x00#8].length % 2 = 0 := by decide
theorem witness_SignExtensionKeepsTheValue :
    (1 ≤ 1 ∧ 1 ≤ 16 ∧ (1#16).toNat < 2 ^ 1 ∧ (1#16).getLsbD 0 = true) ∧
    ((16 : Nat) ≤ 16 ∧ (0x7FFF#16).toNat < 2 ^ 16 ∧ (0x7FFF#16).getLsbD 15 = false) ∧
    ((5 : Nat) ≤ 5 ∧ 5 < 16 ∧ 5 ≤ 15 ∧ 15 < 16) := by decide
theorem witness_DecodeEncodeRoundTrip : (Instr.br 7 0xFF00).wf = true ∧ (Instr.jsr 0x03FF).wf = true := by decide
theorem witness_DontCareBitsAreIgnored :
    (0x1401#16 &&& 0xF020#16 = 0x1000#16 ∧ (0x1401#16 ^^^ 0x1419#16) &&& ~~~0x0018#16 = 0) ∧
    (0x5401#16 &&& 0xF020#16 = 0x5000#16 ∧ (0x5401#16 ^^^ 0x5409#16) &&& ~~~0x0018#16 = 0) ∧
    (0x4080#16 &&& 0xF800#16 = 0x4000#16 ∧ (0x4080#16 ^^^ 0x46BF#16) &&& ~~~0x063F#16 = 0) ∧
    (0x923F#16 &&& 0xF000#16 = 0x9000#16 ∧ (0x923F#16 ^^^ 0x9200#16) &&& ~~~0x003F#16 = 0) ∧
    (0xC1C0#16 &&& 0xF000#16 = 0xC000#16 ∧ (0xC1C0#16 ^^^ 0xCFFF#16) &&& ~~~0x0E3F#16 = 0) ∧
    (0xF025#16 &&& 0xF000#16 = 0xF000#16 ∧ (0xF025#16 ^^^ 0xFF25#16) &&& ~~~0x0F00#16 = 0) ∧
    (0x8000#16 &&& 0xF000#16 = 0x8000#16 ∧ (0x8000#16 ^^^ 0x8FFF#16) &&& ~~~0x0FFF#16 = 0) ∧
    (0xD000#16 &&& 0xF000#16 = 0xD000#16 ∧ (0xD000#16 ^^^ 0xDFFF#16) &&& ~~~0x0FFF#16 = 0) := by decide
theorem witness_StepRunsTheDecodedInstruction :
    (CanStep base ∧ FetchAllowed base) ∧
    (CanStep { base with written := [0x3001] } ∧ ¬ FetchAllowed { base with written := [0x3001] }) ∧
    FetchAllowed { base with written := [0x3001], cfg := Config.coherent } := by
  unfold CanStep FetchAllowed; decide
theorem witness_NoStepWhenStopped :
    (∃ t, step base = .next t) ∧ (base.raise (.selfModifyingCode 5)).fault = some (.selfModifyingCode 5) ∧
    (base.fault = none ∧ ({ base with running := false } : State).running = false) ∧
    (base.running = true ∧ (base.host .requestShutdown).shutdown = true) := ⟨⟨_, rfl⟩, by decide⟩
theorem witness_PlacedWordIsRunNext : CanStep base ∧ base.pc ≠ base.cfg.kbsrAddr ∧ 0xFFFF < 2 ^ 16 := by
  unfold CanStep; decide
theorem witness_OnlyInputRoutinesWait :
    ((Instr.trap 0x20#8 = .trap 0x20#8) ∧ nextByte State.reset.keys = none) ∧
    ((Instr.trap 0x23#8 = .trap 0x23#8 ∧ State.reset.cfg.inMode = .echo) ∧ nextByte State.reset.keys = none) ∧
    ¬ (nextByte base.keys = none) := by decide
theorem witness_WriteStoresOneWord : base.cfg.smcPolicy = .fault ∧ Config.coherent.smcPolicy = .coherent := by decide
theorem witness_PlainReadChangesNothing : (0xFE02#16 : Word) ≠ base.cfg.kbsrAddr ∧ (0xFDFF#16 : Word) ≠ base.cfg.kbsrAddr := by decide
theorem witness_StatusReadSamplesTheKeyboard :
    base.cfg.wf ∧ ({ base with keys := [some 0x41#8] } : State).keys = some 0x41#8 :: [] ∧
    State.reset.keys = [] ∧ base.keys = none :: [some 0x41#8] := by decide
theorem witness_SetccFollowsTheSign :
    (0x8000#16 ≠ 0x0000#16 ∧ (0x8000#16).getLsbD 15 = true) ∧ (0x7FFF#16 ≠ 0x0000#16 ∧ (0x7FFF#16).getLsbD 15 = false) := by decide

/-- The masks of the decoding clauses, at a word of each row with don't-care bits and operands set. -/
theorem witness_row_masks :
    0x1FDF#16 &&& 0xF020#16 = 0x1000#16 ∧ 0x1FFF#16 &&& 0xF020#16 = 0x1020#16 ∧ 0x5FDF#16 &&& 0xF020#16 = 0x5000#16 ∧
    0x5FFF#16 &&& 0xF020#16 = 0x5020#16 ∧ 0x9FFF#16 &&& 0xF000#16 = 0x9000#16 ∧ 0x2FFF#16 &&& 0xF000#16 = 0x2000#16 ∧
    0x3FFF#16 &&& 0xF000#16 = 0x3000#16 ∧ 0x6FFF#16 &&& 0xF000#16 = 0x6000#16 ∧ 0x7FFF#16 &&& 0xF000#16 = 0x7000#16 ∧
    0xAFFF#16 &&& 0xF000#16 = 0xA000#16 ∧ 0xBFFF#16 &&& 0xF000#16 = 0xB000#16 ∧ 0xEFFF#16 &&& 0xF000#16 = 0xE000#16 ∧
    0x0FFF#16 &&& 0xF000#16 = 0x0000#16 ∧ 0x4FFF#16 &&& 0xF800#16 = 0x4800#16 ∧ 0x47FF#16 &&& 0xF800#16 = 0x4000#16 ∧
    0xCFFF#16 &&& 0xF000#16 = 0xC000#16 ∧ 0xFFFF#16 &&& 0xF000#16 = 0xF000#16 := by decide

/-- Operands that hold a value, for AddRegisterResult, AddImmediateResult, AndRegisterResult, AndImmediateResult, NotResult,
StoreResult, LoadRegisterResult, StoreRegisterResult, StoreIndirectResult, JumpResult and OutResult; the ends of the range. -/
theorem witness_operands_valued : base.regHasValue 0 = true ∧ base.regHasValue 1 = true ∧ base.regHasValue 7 = true := by decide
theorem witness_ModeBitEquivalence : base.regHasValue 1 = true ∧ base.reg 1 = 0x4000#16 := by decide
theorem witness_OperateFrame :
    (∃ t, exec (.addReg 2 1 0) base = .next t) ∧ (∃ t, exec (.addImm 2 1 0xFFFF) base = .next t) ∧
    (∃ t, exec (.andReg 2 1 0) base = .next t) ∧ (∃ t, exec (.andImm 2 1 0xFFFF) base = .next t) ∧
    (∃ t, exec (.notReg 2 1) base = .next t) ∧ (∃ t, exec (.lea 2 0xFFFF) base = .next t) :=
  ⟨⟨_, rfl⟩, ⟨_, rfl⟩, ⟨_, rfl⟩, ⟨_, rfl⟩, ⟨_, rfl⟩, ⟨_, rfl⟩⟩
theorem witness_LoadFrame :
    (∃ t, exec (.ld 0 0xFFFF) base = .next t) ∧ (∃ t, exec (.ldr 0 2 0) base = .next t) ∧
    (∃ t, exec (.ldi 0 0xFFFF) base = .next t) ∧
    base.cfg.kbsrAddr ∈ [baseOff (base.reg 2) 0] ∧ base.cfg.kbsrAddr ∉ [base.pcRel 0xFFFF] :=
  ⟨⟨_, rfl⟩, ⟨_, rfl⟩, ⟨_, rfl⟩, by decide, by decide⟩
theorem witness_StoreFrame :
    (∃ t, exec (.st 1 0xFFFF) base = .next t) ∧ (∃ t, exec (.str 1 2 0) base = .next t) ∧
    (∃ t, exec (.sti 1 0xFFFF) base = .next t) ∧ base.cfg.kbsrAddr ∉ [base.pcRel 0xFFFF] :=
  ⟨⟨_, rfl⟩, ⟨_, rfl⟩, ⟨_, rfl⟩, by decide⟩
theorem witness_BranchResult : (0b010#3 &&& base.cond) ≠ 0b000#3 ∧ (0b101#3 &&& base.cond) = 0b000#3 := by decide
theorem witness_JumpToSubroutineRegisterResult :
    (bare.cfg.jsrrOrder = .linkFirst ∧ ((7#3 = 7#3 ∨ bare.regHasValue 7 = true) ∧ bare.regHasValue 1 = true)) ∧
    (({ bare with cfg := Config.baseFirst } : State).cfg.jsrrOrder = .baseFirst ∧ bare.regHasValue 1 = true) := by decide
theorem witness_UnsupportedOpcodeResult :
    base.cfg.unsupportedPolicy = .fault ∧ Config.goOn.unsupportedPolicy = .goOn ∧
    (Instr.rti, UnsupportedOp.rti) ∈ [(Instr.rti, .rti), (Instr.res, .res)] := by decide
theorem witness_ControlFrame :
    (∃ t, exec (.br 2 5) base = .next t) ∧ (∃ t, exec (.jmp 1) base = .next t) ∧ (∃ t, exec .rti base = .next t) ∧
    (∃ t, exec .res base = .next t) ∧ (∃ t, exec (.jsr 5) base = .next t) ∧ (∃ t, exec (.jsrr 1) base = .next t) :=
  ⟨⟨_, rfl⟩, ⟨_, rfl⟩, ⟨_, rfl⟩, ⟨_, rfl⟩, ⟨_, rfl⟩, ⟨_, rfl⟩⟩
theorem witness_GetcResult : nextByte base.keys = some (0x41#8, []) := by decide
theorem witness_InResult :
    (base.cfg.inMode = .echo ∧ nextByte base.keys = some (0x41#8, [])) ∧ Config.noop.inMode = .noop := by decide
/-- A string of one character, then the zero word. -/
def putsScene : State := scene .default 0x3001 [(0x4000, 0x0048)] [(0, 0x4000)]
/-- A string of three characters packed two to a word, ended in a high byte. -/
def putspScene : State := scene .default 0x3001 [(0x4000, 0x6548), (0x4001, 0x006F)] [(0, 0x4000)]
/-- A string of one character, and the empty string. -/
theorem witness_PutsEmitsTheString :
    (putsScene.regHasValue 0#3 = true ∧
     (readSeq putsScene.enterTrap (putsScene.reg 0#3) ([0x0048#16].length + 1)).1 = [0x0048#16] ++ [0x0000#16] ∧
     ∀ w ∈ [0x0048#16], w ≠ 0x0000#16) ∧
    (readSeq State.reset.enterTrap (State.reset.reg 0#3) 1).1 = [] ++ [0x0000#16] := ⟨⟨by decide, by decide, by simp⟩, by decide⟩
/-- A string that ends in a high byte, and one that ends in a low byte. -/
theorem witness_PutspEmitsTheString :
    (putspScene.regHasValue 0#3 = true ∧
     (readSeq putspScene.enterTrap (putspScene.reg 0#3) ([0x6548#16].length + 1)).1 = [0x6548#16] ++ [0x006F#16] ∧
     (∀ w ∈ [0x6548#16], lowByte w ≠ 0x00#8 ∧ highByte w ≠ 0x00#8) ∧ highByte 0x006F#16 = 0x00#8) ∧
    (readSeq State.reset.enterTrap (State.reset.reg 0#3) 1).1 = [] ++ [0x0000#16] ∧ lowByte 0x0000#16 = 0x00#8 :=
  ⟨⟨by decide, by decide, by simp [lowByte, highByte], by decide⟩, by decide, by decide⟩
theorem witness_string_lengths : [0x0048#16].length < 65536 ∧ ([] : List Word).length < 65536 := by simp
theorem witness_HaltEndsTheRun : base.fault = none := by decide
theorem witness_UnknownVectorResult :
    ((0x1F#8).toNat < 0x20 ∨ 0x25 < (0x1F#8).toNat) ∧ ((0x26#8).toNat < 0x20 ∨ 0x25 < (0x26#8).toNat) ∧
    ((0x00#8).toNat < 0x20) ∧ (0x25 < (0xFF#8).toNat) := by decide
/-- TRAP runs for each routine and for an unknown vector (TrapFrame and the whole-machine rules). -/
theorem witness_TrapFrame :
    (∃ t, exec (.trap 0x20) base = .next t) ∧ (∃ t, exec (.trap 0x21) base = .next t) ∧
    (∃ t, exec (.trap 0x23) base = .next t) ∧ (∃ t, exec (.trap 0x25) base = .next t) ∧
    (∃ t, exec (.trap 0x26) base = .next t) :=
  ⟨⟨_, rfl⟩, ⟨_, rfl⟩, ⟨_, rfl⟩, ⟨_, rfl⟩, ⟨_, rfl⟩⟩
theorem witness_TrapFrame_strings :
    shows (exec (.trap 0x22) State.reset) (fun _ => true) = true ∧ shows (exec (.trap 0x24) State.reset) (fun _ => true) = true := by decide
theorem witness_UnwrittenRegisterRaises :
    (bare.regHasValue 2 = false ∧ bare.regHasValue 1 = true) ∧ bare.regHasValue 0 = false ∧ bare.regHasValue 7 = false ∧
    bare.cfg.jsrrOrder = .linkFirst ∧ ({ bare with cfg := Config.baseFirst } : State).cfg.jsrrOrder = .baseFirst := by decide
/-- The next states and the writers of the whole-machine rules. -/
theorem witness_whole_machine_rules :
    (∃ t, exec (.st 1 0) base = .next t) ∧ writesCond base.cfg (.st 1 0) = false ∧ 3#3 ∉ writtenRegs base.cfg (.st 1 0) ∧
    (∃ t, exec (.trap 0x25) base = .next t) := ⟨⟨_, rfl⟩, by decide, by decide, ⟨_, rfl⟩⟩
theorem witness_StepGateChangesNoResult : (base.host .engageGate).gate = true := by decide
theorem witness_HostActionsKeepTheMachineState :
    (∀ a l b, HostAction.engageGate ≠ .patch a l b) ∧ (∀ ks, HostAction.engageGate ≠ .supplyKeys ks) ∧
    (HostAction.patch 5 .low 1 = .patch 5 .low 1 ∧ base.cfg.smcPolicy = .fault) ∧
    ({ base with cfg := Config.coherent } : State).cfg.smcPolicy = .coherent := ⟨by simp, by simp, by decide, by decide⟩
/-- A register without a value as the operand of the frames: the fault state changes, and only there. -/
theorem witness_frames_unwritten :
    shows (exec (.addReg 2 1 0) bare) (fun t => t.fault == some (.unwrittenRegister 0 bare.fetchAddr)) = true ∧
    shows (exec (.ldr 2 0 0) bare) (fun t => t.fault == some (.unwrittenRegister 0 bare.fetchAddr)) = true ∧
    shows (exec (.sti 0 0) bare) (fun t => t.fault == some (.unwrittenRegister 0 bare.fetchAddr)) = true ∧
    shows (exec (.lea 2 0) bare) (fun t => t.fault == none) = true := by decide
theorem witness_PatchReplacesOneByte : base.cfg.smcPolicy = .fault := by decide
theorem witness_InvariantHoldsAtLaunch : ∃ s, launch Config.unvalued (some (imageBytes 0xFFFF#16 [0x1234#16])) = .ok s := ⟨_, rfl⟩

/-- A state with the invariant that takes a step, under other parameters than the default. -/
theorem witness_StepKeepsTheInvariant : State.Inv (State.resetWith Config.unvalued 0x0000) ∧
    ∃ t, step (State.resetWith Config.unvalued 0x0000) = .next t :=
  ⟨⟨Memory.wf_nil, .inr (.inl rfl), .nil, by simp [State.resetWith], fun _ => rfl, by decide, by simp [State.resetWith],
    by simp [State.resetWith]⟩, ⟨_, rfl⟩⟩
theorem witness_ReachableStatesMeetTheInvariant : Reachable .default State.reset :=
  .launched (some [0x30, 0x00]) _ test_reset_is_bare_launch

/-! ### The two ends no single state shows (70_reset_and_hazards.md R210), under a host that does nothing -/

/-- A run whose turn changes nothing stays where it is. -/
theorem runAt_of_turn_eq (s : State) (h : s.turn = s) (n : Nat) : runAt (fun _ => []) s n = s := by
  induction n with
  | zero => rfl
  | succ n ih => show (runAt (fun _ => []) s n).turn = s; rw [ih, h]

/-- "for example at `BRnzp #-1`" (R210). -/
theorem test_branch_to_itself_diverges :
    RunEnds (fun _ => []) (scene .default 0x3000 [(0x3000, 0x0FFF)]) .diverging := by
  have hs : step (scene .default 0x3000 [(0x3000, 0x0FFF)]) = .next (scene .default 0x3000 [(0x3000, 0x0FFF)]) := rfl
  have ht : (scene .default 0x3000 [(0x3000, 0x0FFF)]).turn = scene .default 0x3000 [(0x3000, 0x0FFF)] := by
    simp only [State.turn, hs]
  exact fun n => ⟨n, Nat.le_refl n, _, (congrArg step (runAt_of_turn_eq _ ht n)).trans hs⟩

/-- R213: GETC, and a host that never supplies a byte. -/
theorem test_getc_without_a_byte_is_stuck :
    RunEnds (fun _ => []) (scene .default 0x3000 [(0x3000, 0xF020)]) .stuck := by
  have hs : step (scene .default 0x3000 [(0x3000, 0xF020)]) = .fault .awaitingInput := rfl
  have ht : (scene .default 0x3000 [(0x3000, 0xF020)]).turn = scene .default 0x3000 [(0x3000, 0xF020)] := by
    simp only [State.turn, hs]
  exact ⟨0, fun m _ => (congrArg step (runAt_of_turn_eq _ ht m)).trans hs⟩

/-! ### A memory with no zero word: the witness of StringRoutinesWithoutTerminator (FL6's shape) -/

/-- Every byte of the bank is 1. -/
def fullMem : Memory := (List.range' 0 131072).map fun k => (k, 1#8)

theorem readByte_ones (a n k : Nat) (h : a ≤ k ∧ k < a + n) :
    Memory.readByte ((List.range' a n).map fun k => (k, 1#8)) k = 1#8 := by
  induction n generalizing a with
  | zero => omega
  | succ n ih =>
    simp only [List.range'_succ, List.map_cons, Memory.readByte]
    by_cases e : a = k
    · simp [e]
    · simp only [e, if_false]
      exact ih (a + 1) (by omega)

/-- No word is zero, and the source has a key for each of `n` more reads. -/
def NoZero (n : Nat) (s : State) : Prop :=
  s.cfg = .default ∧ (∀ a, s.mem.readWord a ≠ 0x0000#16) ∧ ∃ m, n ≤ m ∧ s.keys = List.replicate m (some 1#8)

theorem noZero_touch (n : Nat) (s : State) (a : Word) (h : NoZero (n + 1) s) : NoZero n (s.touch a) := by
  obtain ⟨hc, hm, m, hle, hk⟩ := h
  by_cases ha : a = s.cfg.kbsrAddr
  · obtain ⟨m, rfl⟩ : ∃ j, m = j + 1 := ⟨m - 1, by omega⟩
    rw [List.replicate_succ] at hk
    subst ha
    rw [s.touch_key _ _ hk]
    refine ⟨hc, fun b => ?_, m, by omega, rfl⟩
    show Memory.readWord _ b ≠ _
    by_cases hd : b = s.cfg.kbdrAddr
    · rw [hd, Memory.readWord_writeWord_same]; decide
    · rw [Memory.readWord_writeWord_ne _ _ _ _ hd]
      by_cases hs : b = s.cfg.kbsrAddr
      · rw [hs, Memory.readWord_writeWord_same]; decide
      · rw [Memory.readWord_writeWord_ne _ _ _ _ hs]; exact hm b
  · rw [s.touch_plain a ha]
    exact ⟨hc, hm, m, by omega, hk⟩

theorem noZero_readSeq (n : Nat) (s : State) (a : Word) (h : NoZero n s) : ∀ w ∈ (readSeq s a n).1, w ≠ 0x0000#16 := by
  induction n generalizing s a with
  | zero => simp [readSeq]
  | succ n ih =>
    intro w hw
    rcases List.mem_cons.mp hw with rfl | hw
    · exact (noZero_touch n s a h).2.1 a
    · exact ih (s.touch a) (a + 1#16) (noZero_touch n s a h) w hw

theorem witness_StringRoutinesWithoutTerminator :
    ∃ s : State, s.regHasValue 0#3 = true ∧ ∀ w ∈ (readSeq s.enterTrap (s.reg 0#3) 65536).1, w ≠ 0x0000#16 := by
  refine ⟨{ State.reset with mem := fullMem, keys := List.replicate 65536 (some 1#8) }, by rfl, ?_⟩
  refine noZero_readSeq 65536 _ _ ⟨rfl, fun a => ?_, 65536, Nat.le_refl _, rfl⟩
  have ha := a.isLt
  show (Memory.readByte fullMem (2 * a.toNat + 1) ++ Memory.readByte fullMem (2 * a.toNat) : BitVec (8 + 8)) ≠ 0x0000#16
  unfold fullMem
  rw [readByte_ones 0 131072 _ (by omega), readByte_ones 0 131072 _ (by omega)]
  decide

end Sys2Proof.Tests
end

section
/-! Sign extension and the decoder's fields (00_scope.md R9): the lemmas behind O5. -/

namespace Sys2Proof

/-- A value below `2 ^ n` is its own low field, so `sext_bits` speaks of it. -/
theorem bits_eq_self (n : Nat) (v : Word) (hv : v.toNat < 2 ^ n) : bits v 0 n = v := by
  apply BitVec.eq_of_toNat_eq
  have hlt := v.isLt
  simp [bits, Nat.mod_eq_of_lt hv, Nat.mod_eq_of_lt hlt]

theorem bits_toNat_lt (w : Word) (lo len : Nat) : (bits w lo len).toNat < 2 ^ len := by
  unfold bits
  rw [BitVec.toNat_setWidth]
  exact (Nat.mod_le _ _).trans_lt (BitVec.isLt _)

theorem sext_of_bit_set (n : Nat) (v : Word) (h : v.getLsbD (n - 1) = true) :
    sext n v = v ||| (0xFFFF#16 <<< n) := if_pos h

theorem sext_of_bit_clear (n : Nat) (v : Word) (h : v.getLsbD (n - 1) = false) : sext n v = v := by
  simp [sext, h]

/-- Below bit `n` sign extension copies its input, from bit `n` up it copies bit `n - 1` (00_scope.md R9). -/
theorem getLsbD_sext (n : Nat) (v : Word) (h1 : 1 ≤ n) (h : n ≤ 16) (hv : v.toNat < 2 ^ n) (j : Nat) (hj : j < 16) :
    (sext n v).getLsbD j = v.getLsbD (if j < n then j else n - 1) := by
  have hlast : n - 1 < n := by omega
  have hs := sext_bits v n h1 h
  rw [bits_eq_self n v hv] at hs
  rw [hs, BitVec.getLsbD_signExtend, BitVec.msb_eq_getLsbD_last]
  split <;> simp [*]

/-- Truncating to the low `n` bits undoes sign extension. -/
theorem sext_toNat_mod (n : Nat) (v : Word) (h1 : 1 ≤ n) (h : n ≤ 16) (hv : v.toNat < 2 ^ n) :
    (sext n v).toNat % 2 ^ n = v.toNat := by
  have hlow : (sext n v).setWidth n = v.setWidth n := by
    apply BitVec.eq_of_getLsbD_eq
    intro j hj
    have hj16 : j < 16 := by omega
    simp [hj, getLsbD_sext n v h1 h hv j hj16]
  calc (sext n v).toNat % 2 ^ n = ((sext n v).setWidth n).toNat := (BitVec.toNat_setWidth ..).symm
    _ = (v.setWidth n).toNat := by rw [hlow]
    _ = v.toNat := by rw [BitVec.toNat_setWidth, Nat.mod_eq_of_lt hv]

/-- From bit `n` up the result copies the sign bit `n - 1` of its input. -/
theorem getLsbD_sext_upper (n : Nat) (v : Word) (h1 : 1 ≤ n) (h : n ≤ 16) (hv : v.toNat < 2 ^ n) (j : Nat)
    (hn : n ≤ j) (hj : j < 16) : (sext n v).getLsbD j = v.getLsbD (n - 1) := by
  rw [getLsbD_sext n v h1 h hv j hj, if_neg (Nat.not_lt.mpr hn)]

/-- Settles O5: the two branches of the contract are those of `sext`; truncation and the upper bits are read off
`getLsbD_sext`; the four immediates are `sext` of a field that `bits_toNat_lt` bounds. -/
theorem signExtensionKeepsTheValue : Obligations.SignExtensionKeepsTheValue := by
  unfold Obligations.SignExtensionKeepsTheValue
  refine ⟨fun n v h1 h hv => ?contract, fun w => ?immediates⟩
  case contract =>
    exact ⟨sext_of_bit_set n v, sext_of_bit_clear n v, sext_toNat_mod n v h1 h hv, getLsbD_sext_upper n v h1 h hv⟩
  case immediates =>
    exact ⟨⟨rfl, bits_toNat_lt w 0 5⟩, ⟨rfl, bits_toNat_lt w 0 6⟩, ⟨rfl, bits_toNat_lt w 0 9⟩,
      ⟨rfl, bits_toNat_lt w 0 11⟩⟩

end Sys2Proof
end

section
/-! The sign test of `setcc` (10_state.md R27): an equation per branch of `condOf`, the lemmas behind O17. -/

namespace Sys2Proof
open Machine

theorem condOf_of_negative (v : Word) (hne : v ≠ 0x0000#16) (hsign : v.getLsbD 15 = true) : condOf v = 0b100#3 :=
  (if_neg hne).trans (if_pos hsign)

theorem condOf_of_positive (v : Word) (hne : v ≠ 0x0000#16) (hsign : v.getLsbD 15 = false) : condOf v = 0b001#3 :=
  (if_neg hne).trans (if_neg (Bool.eq_false_iff.mp hsign))

/-- Settles O17: `setcc` writes `condOf v`, whose three branches are the three clauses. -/
theorem setccFollowsTheSign : Obligations.SetccFollowsTheSign := by
  unfold Obligations.SetccFollowsTheSign
  intro s v
  rw [State.setcc_cond]
  exact ⟨(condOf_zero v).mpr, condOf_of_negative v, condOf_of_positive v⟩

end Sys2Proof
end

section
/-! One step of a block that may step (30_encoding.md R80): an equation per answer of the fetch check, the lemmas behind
O10. -/

namespace Sys2Proof
open Machine

/-- The model's Boolean fetch check is the spec's condition of 20_memory.md R63. -/
theorem fetchForbidden_eq_false_iff (s : State) : s.fetchForbidden = false ↔ FetchAllowed s := by
  unfold State.fetchForbidden FetchAllowed
  cases s.cfg.smcPolicy with
  | fault => simp
  | coherent => simp

theorem step_of_fetchAllowed {s : State} (hcan : CanStep s) (hfetch : FetchAllowed s) :
    step s = exec (decode s.fetch.1) s.fetch.2 := by
  have hblocked : s.blocked = none := s.blocked_eq_none.mpr hcan
  have hcheck : s.fetchForbidden = false := (fetchForbidden_eq_false_iff s).mpr hfetch
  simp [step, hblocked, hcheck]

theorem step_of_not_fetchAllowed {s : State} (hcan : CanStep s) (hfetch : ¬ FetchAllowed s) :
    step s = .next (s.raise (.selfModifyingCode s.pc)) := by
  have hblocked : s.blocked = none := s.blocked_eq_none.mpr hcan
  have hcheck : s.fetchForbidden = true := by
    rwa [← fetchForbidden_eq_false_iff, Bool.not_eq_false] at hfetch
  simp [step, hblocked, hcheck]

/-- Settles O10: the two answers of the fetch check; `State.fetch` is by definition the read at PC, then `PC + 1`. -/
theorem stepRunsTheDecodedInstruction : Obligations.StepRunsTheDecodedInstruction := by
  unfold Obligations.StepRunsTheDecodedInstruction
  exact fun _ hcan => ⟨step_of_fetchAllowed hcan, step_of_not_fetchAllowed hcan⟩

end Sys2Proof
end

section
/-! The operate instructions (40_operate.md R100 to R104): how ADD, AND and NOT decode; what `R[dr] <- v; setcc(v)` leaves,
and the two shapes of an operate instruction whose sources hold values; the lemmas behind O18 to O22. -/

namespace Sys2Proof
open Machine

/-! ### Decoding -/

/-- The mask of ADD's and AND's rows keeps the opcode and the mode bit, all that the selection among their forms looks at
(30_encoding.md R75). -/
theorem decode_of_mode_mask {w p : Word} (h : w &&& 0xF020#16 = p) :
    decode w = select { fields w with op := p.extractLsb' 12 4, immMode := p.getLsbD 5 } := by
  have hop : w.extractLsb' 12 4 = p.extractLsb' 12 4 := op_of_mask w p _ h (by decide)
  have hmode : w.getLsbD 5 = p.getLsbD 5 := bit_of_mask w p _ 5 h (by decide)
  rw [decode_of_op w _ hop, ← hmode]
  rfl

theorem decode_addReg_of_mask (w : Word) (h : w &&& 0xF020#16 = 0x1000#16) :
    decode w = .addReg (w.extractLsb' 9 3) (w.extractLsb' 6 3) (w.extractLsb' 0 3) :=
  decode_of_mode_mask h

theorem decode_addImm_of_mask (w : Word) (h : w &&& 0xF020#16 = 0x1020#16) :
    decode w = .addImm (w.extractLsb' 9 3) (w.extractLsb' 6 3) (sext 5 (bits w 0 5)) :=
  decode_of_mode_mask h

theorem decode_andReg_of_mask (w : Word) (h : w &&& 0xF020#16 = 0x5000#16) :
    decode w = .andReg (w.extractLsb' 9 3) (w.extractLsb' 6 3) (w.extractLsb' 0 3) :=
  decode_of_mode_mask h

theorem decode_andImm_of_mask (w : Word) (h : w &&& 0xF020#16 = 0x5020#16) :
    decode w = .andImm (w.extractLsb' 9 3) (w.extractLsb' 6 3) (sext 5 (bits w 0 5)) :=
  decode_of_mode_mask h

/-- NOT's mask keeps the opcode alone: its low six bits are don't-care (30_encoding.md R76). -/
theorem decode_notReg_of_mask (w : Word) (h : w &&& 0xF000#16 = 0x9000#16) :
    decode w = .notReg (w.extractLsb' 9 3) (w.extractLsb' 6 3) :=
  decode_of_op w 9#4 (op_of_mask w _ _ h (by decide))

/-! ### Results -/

theorem define_defines (s : State) (dr : RegIdx) (v : Word) : Defines s (s.define dr v) dr v :=
  ⟨s.reg_setReg_same dr v, s.regHasValue_setReg_same dr v, rfl, rfl, rfl⟩

/-- An operate instruction with one register source: the immediate forms and NOT. -/
theorem readReg_define_defines {s : State} {r : RegIdx} (hr : s.regHasValue r = true) (dr : RegIdx) (f : Word → Word) :
    ∃ t, (s.readReg r fun a => .next (s.define dr (f a))) = .next t ∧ Defines s t dr (f (s.reg r)) :=
  ⟨_, s.readReg_of_hasValue r _ hr, define_defines s dr _⟩

/-- An operate instruction with two register sources: the register forms of ADD and AND. -/
theorem readReg_readReg_define_defines {s : State} {r q : RegIdx} (hr : s.regHasValue r = true)
    (hq : s.regHasValue q = true) (dr : RegIdx) (f : Word → Word → Word) :
    ∃ t, (s.readReg r fun a => s.readReg q fun b => .next (s.define dr (f a b))) = .next t ∧
      Defines s t dr (f (s.reg r) (s.reg q)) := by
  rw [s.readReg_of_hasValue r _ hr]
  exact readReg_define_defines hq dr (f (s.reg r))

/-- Settles O18: the row's mask fixes opcode and mode bit, and the instruction has the two-source shape. -/
theorem addRegisterResult : Obligations.AddRegisterResult := by
  unfold Obligations.AddRegisterResult
  exact ⟨decode_addReg_of_mask, fun dr _ _ _ h1 h2 => readReg_readReg_define_defines h1 h2 dr (· + ·)⟩

/-- Settles O19: the row's mask fixes opcode and mode bit, and the instruction has the one-source shape. -/
theorem addImmediateResult : Obligations.AddImmediateResult := by
  unfold Obligations.AddImmediateResult
  exact ⟨decode_addImm_of_mask, fun dr _ imm5 _ h1 => readReg_define_defines h1 dr (· + imm5)⟩

/-- Settles O20: the row's mask fixes opcode and mode bit, and the instruction has the two-source shape. -/
theorem andRegisterResult : Obligations.AndRegisterResult := by
  unfold Obligations.AndRegisterResult
  exact ⟨decode_andReg_of_mask, fun dr _ _ _ h1 h2 => readReg_readReg_define_defines h1 h2 dr (· &&& ·)⟩

/-- Settles O21: the row's mask fixes opcode and mode bit, and the instruction has the one-source shape. -/
theorem andImmediateResult : Obligations.AndImmediateResult := by
  unfold Obligations.AndImmediateResult
  exact ⟨decode_andImm_of_mask, fun dr _ imm5 _ h1 => readReg_define_defines h1 dr (· &&& imm5)⟩

/-- Settles O22: the model complements the bits, which is `0xFFFF` minus the source. -/
theorem notResult : Obligations.NotResult := by
  unfold Obligations.NotResult
  refine ⟨decode_notReg_of_mask, fun dr sr s hsr => ?_⟩
  have hcomplement : 0xFFFF#16 - s.reg sr = ~~~(s.reg sr) := BitVec.allOnes_sub_eq_not _
  rw [hcomplement]
  exact readReg_define_defines hsr dr (~~~·)

end Sys2Proof
end

section
/-! The data movement instructions (41_data_movement.md R110 to R116): how they decode, what the end of a load and a store
leave, through the keyboard intercept or not; the lemmas behind O25 to O31. -/

namespace Sys2Proof
open Machine

/-! ### Decoding -/

/-- The mask of a row without a mode bit keeps the opcode, all that the selection looks at (30_encoding.md R71). -/
theorem decode_of_opcode_mask {w p : Word} (h : w &&& 0xF000#16 = p) :
    decode w = select { fields w with op := p.extractLsb' 12 4 } :=
  decode_of_op w _ (op_of_mask w p _ h (by decide))

theorem decode_ld_of_mask (w : Word) (h : w &&& 0xF000#16 = 0x2000#16) :
    decode w = .ld (w.extractLsb' 9 3) (sext 9 (bits w 0 9)) :=
  decode_of_opcode_mask h

theorem decode_st_of_mask (w : Word) (h : w &&& 0xF000#16 = 0x3000#16) :
    decode w = .st (w.extractLsb' 9 3) (sext 9 (bits w 0 9)) :=
  decode_of_opcode_mask h

theorem decode_ldr_of_mask (w : Word) (h : w &&& 0xF000#16 = 0x6000#16) :
    decode w = .ldr (w.extractLsb' 9 3) (w.extractLsb' 6 3) (sext 6 (bits w 0 6)) :=
  decode_of_opcode_mask h

theorem decode_str_of_mask (w : Word) (h : w &&& 0xF000#16 = 0x7000#16) :
    decode w = .str (w.extractLsb' 9 3) (w.extractLsb' 6 3) (sext 6 (bits w 0 6)) :=
  decode_of_opcode_mask h

theorem decode_ldi_of_mask (w : Word) (h : w &&& 0xF000#16 = 0xA000#16) :
    decode w = .ldi (w.extractLsb' 9 3) (sext 9 (bits w 0 9)) :=
  decode_of_opcode_mask h

theorem decode_sti_of_mask (w : Word) (h : w &&& 0xF000#16 = 0xB000#16) :
    decode w = .sti (w.extractLsb' 9 3) (sext 9 (bits w 0 9)) :=
  decode_of_opcode_mask h

theorem decode_lea_of_mask (w : Word) (h : w &&& 0xF000#16 = 0xE000#16) :
    decode w = .lea (w.extractLsb' 9 3) (sext 9 (bits w 0 9)) :=
  decode_of_opcode_mask h

/-! ### Loads -/

/-- A read through the intercept moves neither PC nor the fault state, so what `Defines` says of the state after it, it
says of the state before it. -/
theorem defines_of_defines_touch {s t : State} {a : Word} {dr : RegIdx} {v : Word} (h : Defines (s.touch a) t dr v) :
    Defines s t dr v := by
  unfold Defines at h ⊢
  rwa [s.touch_pc, s.touch_fault] at h

theorem loadInto_defines (s : State) (dr : RegIdx) (ea : Word) :
    Defines s (s.loadInto dr ea) dr (s.memRead ea).1 :=
  defines_of_defines_touch (define_defines (s.touch ea) dr _)

theorem loadInto_mem (s : State) (dr : RegIdx) (ea : Word) : (s.loadInto dr ea).mem = (s.memRead ea).2.mem := rfl

theorem loadInto_keys (s : State) (dr : RegIdx) (ea : Word) : (s.loadInto dr ea).keys = (s.memRead ea).2.keys := rfl

theorem execLdr_of_hasValue {s : State} {baseR : RegIdx} (hbase : s.regHasValue baseR = true) (dr : RegIdx)
    (off6 : Word) :
    execLdr dr baseR off6 s = .next (s.loadInto dr (baseOff (s.reg baseR) off6)) := by
  rw [execLdr, s.readReg_of_hasValue baseR _ hbase]

/-- Settles O25: `PC + offset` is the address of the load's end, in every state. -/
theorem loadResult : Obligations.LoadResult := by
  unfold Obligations.LoadResult
  exact ⟨decode_ld_of_mask, fun dr _ s =>
    ⟨_, rfl, loadInto_defines s dr _, loadInto_mem s dr _, loadInto_keys s dr _⟩⟩

/-- Settles O27: the base that holds a value gives the address of the load's end. -/
theorem loadRegisterResult : Obligations.LoadRegisterResult := by
  unfold Obligations.LoadRegisterResult
  exact ⟨decode_ldr_of_mask, fun dr _ off6 s hbase =>
    ⟨_, execLdr_of_hasValue hbase dr off6, loadInto_defines s dr _, loadInto_mem s dr _, loadInto_keys s dr _⟩⟩

/-- Settles O29: the load's end runs in the state after the pointer read, which `defines_of_defines_touch` takes back to
the state before it. -/
theorem loadIndirectResult : Obligations.LoadIndirectResult := by
  unfold Obligations.LoadIndirectResult
  refine ⟨decode_ldi_of_mask, fun dr off9 s => ?_⟩
  have hdef := loadInto_defines (s.memRead (s.pc + off9)).2 dr (s.memRead (s.pc + off9)).1
  exact ⟨_, rfl, defines_of_defines_touch hdef, loadInto_mem _ dr _, loadInto_keys _ dr _⟩

/-- Settles O31: LEA is `R[dr] <- v; setcc(v)` for `v = PC + offset`, with no read. -/
theorem loadAddressResult : Obligations.LoadAddressResult := by
  unfold Obligations.LoadAddressResult
  exact ⟨decode_lea_of_mask, fun dr _ s => ⟨_, rfl, define_defines s dr _, rfl, rfl⟩⟩

/-! ### Stores -/

/-- The word stored to reads as the value stored, also at the keyboard's addresses (20_memory.md R52). -/
theorem readWord_memWrite_same (s : State) (ea v : Word) : (s.memWrite ea v).mem.readWord ea = v := by
  rw [s.memWrite_mem, Memory.readWord_writeWord_same]

/-- A store, once its source register holds a value: ST as it stands, STR after its base read, STI in the state after its
pointer read. -/
theorem readReg_memWrite_stores {s : State} {sr : RegIdx} (hsr : s.regHasValue sr = true) (ea : Word) :
    ∃ t, (s.readReg sr fun v => .next (s.memWrite ea v)) = .next t ∧ t = s.memWrite ea (s.reg sr) ∧
      t.mem.readWord ea = s.reg sr ∧ t.cond = s.cond ∧ t.pc = s.pc ∧ t.fault = s.fault :=
  ⟨_, s.readReg_of_hasValue sr _ hsr, rfl, readWord_memWrite_same s ea _, s.memWrite_cond ea _, s.memWrite_pc ea _,
    s.memWrite_fault ea _⟩

theorem execStr_of_hasValue_base {s : State} {baseR : RegIdx} (hbase : s.regHasValue baseR = true) (sr : RegIdx)
    (off6 : Word) :
    execStr sr baseR off6 s = s.readReg sr fun v => .next (s.memWrite (baseOff (s.reg baseR) off6) v) := by
  rw [execStr, s.readReg_of_hasValue baseR _ hbase]

/-- Settles O26: `PC + offset` is the address stored to. -/
theorem storeResult : Obligations.StoreResult := by
  unfold Obligations.StoreResult
  exact ⟨decode_st_of_mask, fun _ _ _ hsr => readReg_memWrite_stores hsr _⟩

/-- Settles O28: the base that holds a value gives the address stored to. -/
theorem storeRegisterResult : Obligations.StoreRegisterResult := by
  unfold Obligations.StoreRegisterResult
  refine ⟨decode_str_of_mask, fun sr baseR off6 s hbase hsr => ?_⟩
  obtain ⟨t, ht, hstored⟩ := readReg_memWrite_stores hsr (baseOff (s.reg baseR) off6)
  exact ⟨t, (execStr_of_hasValue_base hbase sr off6).trans ht, hstored⟩

/-- Settles O30: the store runs in the state after the pointer read, whose registers, COND, PC and fault state are those
before it. -/
theorem storeIndirectResult : Obligations.StoreIndirectResult := by
  unfold Obligations.StoreIndirectResult
  refine ⟨decode_sti_of_mask, fun sr off9 s hsr => ?_⟩
  have hsr' : (s.touch (s.pc + off9)).regHasValue sr = true := (s.regHasValue_touch _ sr).trans hsr
  have hstore := readReg_memWrite_stores hsr' (s.memRead (s.pc + off9)).1
  rwa [s.reg_touch, s.touch_cond, s.touch_pc, s.touch_fault] at hstore

end Sys2Proof
end

section
/-! The control transfer instructions (42_control.md R130, R131, R134): how BR, JSR and JMP decode; what each leaves in PC
and in the link register; the lemmas behind O34, O35 and O37. -/

namespace Sys2Proof
open Machine

/-! ### Decoding -/

theorem decode_br_of_mask (w : Word) (h : w &&& 0xF000#16 = 0x0000#16) :
    decode w = .br (w.extractLsb' 9 3) (sext 9 (bits w 0 9)) :=
  decode_of_opcode_mask h

theorem decode_jmp_of_mask (w : Word) (h : w &&& 0xF000#16 = 0xC000#16) :
    decode w = .jmp (w.extractLsb' 6 3) :=
  decode_of_opcode_mask h

/-- The mask of opcode 4's two rows keeps the opcode and bit 11, all that the selection between JSR and JSRR looks at
(30_encoding.md R75). -/
theorem decode_of_jsrMode_mask {w p : Word} (h : w &&& 0xF800#16 = p) :
    decode w = select { fields w with op := p.extractLsb' 12 4, jsrMode := p.getLsbD 11 } := by
  have hop : w.extractLsb' 12 4 = p.extractLsb' 12 4 := op_of_mask w p _ h (by decide)
  have hmode : w.getLsbD 11 = p.getLsbD 11 := bit_of_mask w p _ 11 h (by decide)
  rw [decode_of_op w _ hop, ← hmode]
  rfl

theorem decode_jsr_of_mask (w : Word) (h : w &&& 0xF800#16 = 0x4800#16) :
    decode w = .jsr (sext 11 (bits w 0 11)) :=
  decode_of_jsrMode_mask h

/-! ### Results -/

/-- BR's Boolean test is the condition of R130. -/
theorem condMatches_iff (s : State) (nzp : BitVec 3) : s.condMatches nzp = true ↔ (nzp &&& s.cond) ≠ 0b000#3 :=
  bne_iff_ne

theorem execBr_of_condMatches {s : State} {nzp : BitVec 3} (hmatch : (nzp &&& s.cond) ≠ 0b000#3) (off9 : Word) :
    execBr nzp off9 s = .next (s.setPc (s.pc + off9)) :=
  congrArg Host.Outcome.next (if_pos ((condMatches_iff s nzp).mpr hmatch))

theorem execBr_of_not_condMatches {s : State} {nzp : BitVec 3} (hnone : (nzp &&& s.cond) = 0b000#3) (off9 : Word) :
    execBr nzp off9 s = .next s :=
  congrArg Host.Outcome.next (if_neg fun hmatch => (condMatches_iff s nzp).mp hmatch hnone)

theorem execJmp_of_hasValue {s : State} {baseR : RegIdx} (hbase : s.regHasValue baseR = true) :
    execJmp baseR s = .next (s.setPc (s.reg baseR)) :=
  s.readReg_of_hasValue baseR _ hbase

/-- Settles O34: not taken the state stays as it is, taken only PC changes. -/
theorem branchResult : Obligations.BranchResult := by
  unfold Obligations.BranchResult
  refine ⟨decode_br_of_mask, fun nzp off9 s => ?_⟩
  by_cases hnone : (nzp &&& s.cond) = 0b000#3
  case pos =>
    exact ⟨s, execBr_of_not_condMatches hnone off9, rfl, rfl, fun hmatch => absurd hnone hmatch, fun _ => rfl⟩
  case neg =>
    exact ⟨_, execBr_of_condMatches hnone off9, s.setPc_cond _, s.setPc_fault _, fun _ => s.setPc_pc _,
      fun h => absurd h hnone⟩

/-- Settles O35: PC is written last, so R7 still holds the return address. -/
theorem jumpToSubroutineResult : Obligations.JumpToSubroutineResult := by
  unfold Obligations.JumpToSubroutineResult
  refine ⟨decode_jsr_of_mask, fun off11 s => ?_⟩
  have hlink : ((s.setReg linkReg s.pc).setPc (s.pcRel off11)).reg 7#3 = s.pc := by
    rw [State.reg_setPc]
    exact s.reg_setReg_same linkReg s.pc
  exact ⟨_, rfl, hlink, State.setPc_pc _ _, rfl, rfl⟩

/-- Settles O37: the base that holds a value gives the new PC, the one field that changes. -/
theorem jumpResult : Obligations.JumpResult := by
  unfold Obligations.JumpResult
  exact ⟨decode_jmp_of_mask, fun _ s hbase =>
    ⟨_, execJmp_of_hasValue hbase, s.setPc_pc _, s.setPc_cond _, s.setPc_fault _⟩⟩

end Sys2Proof
end

section
/-! The two fields that no instruction and no step reads: the diagnostics (60_exceptions.md R177) and the step gate
(70_reset_and_hazards.md R208). Changing them before an operation is changing them after it: one rule per operation that
branches, and from those `exec` and `step`; the lemmas behind O54. The gate is carried along because R208 asks the same of
it, so that one case split over the instructions serves both. -/

namespace Sys2Proof
open Machine

/-- `s` with its diagnostics changed by `f` and its gate by `g`. -/
def mapUnread (f : List FaultRecord → List FaultRecord) (g : Bool → Bool) (s : State) : State :=
  { s with diags := f s.diags, gate := g s.gate }

theorem withOlderDiags_eq_mapUnread (s : State) (d : List FaultRecord) :
    s.withOlderDiags d = mapUnread (d ++ ·) id s := rfl

/-- `m` answers the same outcome whether the unread fields change before it or in the state it answers. -/
def Blind (f : List FaultRecord → List FaultRecord) (g : Bool → Bool) (m : State → Result) : Prop :=
  ∀ s, m (mapUnread f g s) = mapNext (mapUnread f g) (m s)

/-- `f` lets an instruction's own event stay the last of the log. -/
def KeepsNewEvents (f : List FaultRecord → List FaultRecord) : Prop :=
  ∀ ds k, f (ds ++ [k]) = f ds ++ [k]

theorem keepsNewEvents_append (d : List FaultRecord) : KeepsNewEvents (d ++ ·) :=
  fun ds k => (List.append_assoc d ds [k]).symm

section
variable {f : List FaultRecord → List FaultRecord} {g : Bool → Bool}

@[simp] theorem mapUnread_cfg (s : State) : (mapUnread f g s).cfg = s.cfg := rfl

/-! ### Operands, input and the unsupported path -/

theorem Blind.next {u : State → State} (hu : ∀ s, u (mapUnread f g s) = mapUnread f g (u s)) :
    Blind f g fun s => .next (u s) :=
  fun s => congrArg Host.Outcome.next (hu s)

/-- A register read in the state `u s`: STI reads its source after the pointer, JSRR its base after the link. -/
theorem Blind.readRegIn {u : State → State} {r : RegIdx} {k : Word → State → Result}
    (hu : ∀ s, u (mapUnread f g s) = mapUnread f g (u s)) (hk : ∀ v, Blind f g (k v)) :
    Blind f g fun s => (u s).readReg r fun v => k v s := by
  intro s
  have hvalued : (mapUnread f g (u s)).regHasValue r = (u s).regHasValue r := rfl
  simp only [hu]
  cases h : (u s).regHasValue r with
  | true => rw [State.readReg_of_hasValue _ r _ h, State.readReg_of_hasValue _ r _ (hvalued.trans h)]; exact hk _ s
  | false => rw [State.readReg_of_noValue _ r _ h, State.readReg_of_noValue _ r _ (hvalued.trans h)]; rfl

theorem Blind.readReg {r : RegIdx} {k : Word → State → Result} (hk : ∀ v, Blind f g (k v)) :
    Blind f g fun s => s.readReg r fun v => k v s :=
  .readRegIn (u := id) (fun _ => rfl) hk

theorem Blind.withInput {k : Byte → State → Result} (hk : ∀ c, Blind f g (k c)) :
    Blind f g fun s => s.withInput k := by
  intro s
  dsimp only
  have hkeys : nextByte (mapUnread f g s).keys = nextByte s.keys := rfl
  cases h : nextByte s.keys with
  | some p =>
    rw [s.withInput_some k p.1 p.2 h, State.withInput_some _ k p.1 p.2 (hkeys.trans h)]
    exact hk p.1 { s with keys := p.2 }
  | none => rw [s.withInput_none k h, State.withInput_none _ k (hkeys.trans h)]; rfl

theorem diag_mapUnread (hf : KeepsNewEvents f) (s : State) (k : FaultRecord) :
    (mapUnread f g s).diag k = mapUnread f g (s.diag k) :=
  congrArg (fun ds => { mapUnread f g s with diags := ds }) (hf s.diags k).symm

theorem unsupported_mapUnread (hf : KeepsNewEvents f) (s : State) (k : FaultRecord) :
    (mapUnread f g s).unsupported k = mapUnread f g (s.unsupported k) := by
  unfold State.unsupported
  rw [diag_mapUnread hf, mapUnread_cfg]
  cases s.cfg.unsupportedPolicy with
  | fault => rfl
  | goOn => rfl

/-! ### TRAP -/

theorem putsLoop_mapUnread (n : Nat) (a : Word) (s : State) :
    putsLoop n a (mapUnread f g s) = Prod.map id (mapUnread f g) (putsLoop n a s) := by
  induction n generalizing a s with
  | zero => rfl
  | succ n ih =>
    have hread : ((mapUnread f g s).memRead a).1 = (s.memRead a).1 := rfl
    simp only [putsLoop, hread]
    split
    · rfl
    · exact ih _ ((s.memRead a).2.emit _)

theorem putspLoop_mapUnread (n : Nat) (a : Word) (s : State) :
    putspLoop n a (mapUnread f g s) = Prod.map id (mapUnread f g) (putspLoop n a s) := by
  induction n generalizing a s with
  | zero => rfl
  | succ n ih =>
    have hread : ((mapUnread f g s).memRead a).1 = (s.memRead a).1 := rfl
    simp only [putspLoop, hread]
    split
    · rfl
    · split
      · rfl
      · exact ih _ (((s.memRead a).2.emit _).emit _)

theorem stringEnd_blind {loop : State → Bool × State} (start : Word)
    (hloop : ∀ s, loop (mapUnread f g s) = Prod.map id (mapUnread f g) (loop s)) :
    Blind f g fun s => stringEnd start (loop s) := by
  intro s
  dsimp only
  rw [hloop]
  obtain ⟨found, t⟩ := loop s
  cases found with
  | true => rfl
  | false => rfl

theorem trapIn_blind : Blind f g trapIn := by
  intro s
  have hdefine : ∀ c : Byte, Blind f g fun s => .next ((s.emit c).define 0#3 (c.setWidth 16)) :=
    fun _ => .next fun _ => rfl
  unfold trapIn
  rw [mapUnread_cfg]
  cases s.cfg.inMode with
  | echo => exact Blind.withInput hdefine s
  | noop => rfl

theorem trapHalt_blind : Blind f g trapHalt := by
  intro s
  unfold trapHalt
  rw [foldl_emit, foldl_emit]
  rfl

theorem trapRoutine_blind (hf : KeepsNewEvents f) (v : Byte) : Blind f g (trapRoutine v) := by
  rcases trapRoutine_cases v with ⟨-, h⟩ | ⟨-, h⟩ | ⟨-, h⟩ | ⟨-, h⟩ | ⟨-, h⟩ | ⟨-, h⟩ | ⟨-, h⟩ <;> rw [h]
  · exact .withInput fun _ => .next fun _ => rfl
  · exact .readReg fun _ => .next fun _ => rfl
  · exact .readReg fun a => stringEnd_blind a (putsLoop_mapUnread 65536 a)
  · exact trapIn_blind
  · exact .readReg fun a => stringEnd_blind a (putspLoop_mapUnread 65536 a)
  · exact trapHalt_blind
  · exact .next fun s => unsupported_mapUnread hf s _

/-! ### Instructions and steps -/

theorem execBr_blind (nzp : BitVec 3) (off9 : Word) : Blind f g (execBr nzp off9) :=
  .next fun s => (apply_ite (mapUnread f g) (s.condMatches nzp = true) (s.setPc (s.pcRel off9)) s).symm

theorem execJsrr_blind (baseR : RegIdx) : Blind f g (execJsrr baseR) := by
  intro s
  have hjump : ∀ t, Blind f g fun s => .next ((s.setReg linkReg s.pc).setPc t) := fun _ => .next fun _ => rfl
  unfold execJsrr
  rw [mapUnread_cfg]
  cases s.cfg.jsrrOrder with
  | linkFirst => exact Blind.readRegIn (u := fun s => s.setReg linkReg s.pc) (fun _ => rfl) hjump s
  | baseFirst => exact Blind.readReg hjump s

theorem exec_blind (hf : KeepsNewEvents f) (i : Instr) : Blind f g (exec i) := by
  cases i with
  | addReg dr sr1 sr2 =>
    exact show Blind f g (execAddReg dr sr1 sr2) from .readReg fun _ => .readReg fun _ => .next fun _ => rfl
  | andReg dr sr1 sr2 =>
    exact show Blind f g (execAndReg dr sr1 sr2) from .readReg fun _ => .readReg fun _ => .next fun _ => rfl
  | str sr baseR off6 =>
    exact show Blind f g (execStr sr baseR off6) from .readReg fun _ => .readReg fun _ => .next fun _ => rfl
  | addImm dr sr1 imm5 => exact show Blind f g (execAddImm dr sr1 imm5) from .readReg fun _ => .next fun _ => rfl
  | andImm dr sr1 imm5 => exact show Blind f g (execAndImm dr sr1 imm5) from .readReg fun _ => .next fun _ => rfl
  | notReg dr sr => exact show Blind f g (execNot dr sr) from .readReg fun _ => .next fun _ => rfl
  | st sr off9 => exact show Blind f g (execSt sr off9) from .readReg fun _ => .next fun _ => rfl
  | ldr dr baseR off6 => exact show Blind f g (execLdr dr baseR off6) from .readReg fun _ => .next fun _ => rfl
  | sti sr off9 => exact show Blind f g (execSti sr off9) from .readRegIn (fun _ => rfl) fun _ => .next fun _ => rfl
  | jmp baseR => exact show Blind f g (execJmp baseR) from .readReg fun _ => .next fun _ => rfl
  | jsrr baseR => exact execJsrr_blind baseR
  | br nzp off9 => exact execBr_blind nzp off9
  | rti => exact .next fun s => unsupported_mapUnread hf s _
  | res => exact .next fun s => unsupported_mapUnread hf s _
  | trap v => exact fun s => trapRoutine_blind hf v s.enterTrap
  | ld _ _ => exact .next fun _ => rfl
  | ldi _ _ => exact .next fun _ => rfl
  | lea _ _ => exact .next fun _ => rfl
  | jsr _ => exact .next fun _ => rfl

/-- The stops, the fetch check and the fetch read neither field; the rest is the instruction. -/
theorem step_blind (hf : KeepsNewEvents f) : Blind f g step := by
  intro s
  have hblocked : (mapUnread f g s).blocked = s.blocked := rfl
  have hforbidden : (mapUnread f g s).fetchForbidden = s.fetchForbidden := rfl
  unfold step
  rw [hblocked, hforbidden]
  cases s.blocked with
  | some _ => rfl
  | none =>
    cases s.fetchForbidden with
    | true => rfl
    | false => exact exec_blind hf (decode s.fetch.1) s.fetch.2

end

/-- Settles O54: `diag` is one appended event by definition, and older events are an instance of `mapUnread`. -/
theorem diagnosticsAreInvisible : Obligations.DiagnosticsAreInvisible := by
  unfold Obligations.DiagnosticsAreInvisible
  simp only [withOlderDiags_eq_mapUnread]
  exact ⟨fun _ _ => rfl, fun i s d => exec_blind (keepsNewEvents_append d) i s,
    fun s d => step_blind (keepsNewEvents_append d) s⟩

end Sys2Proof
end

section
/-! The step gate (70_reset_and_hazards.md R208): setting the gate is one way of changing the unread fields, so a step
commutes with it (`step_blind`), and keeps it. A run of `n` gated invocations then follows the one ungated invocation step by
step; the lemmas behind O55. -/

namespace Sys2Proof
open Machine

@[simp] theorem withGate_gate (s : State) (b : Bool) : (s.withGate b).gate = b := rfl

@[simp] theorem withGate_withGate (s : State) (b c : Bool) : (s.withGate b).withGate c = s.withGate c := rfl

theorem withGate_of_gate {s : State} {b : Bool} (h : s.gate = b) : s.withGate b = s := h ▸ rfl

theorem step_withGate (s : State) (b : Bool) : step (s.withGate b) = mapNext (fun t => t.withGate b) (step s) :=
  step_blind (f := id) (g := fun _ => b) (fun _ _ => rfl) s

/-- Only the host moves the gate: writing back the value it has changes nothing before the step, so nothing after it. -/
theorem gate_of_step {s t : State} (h : step s = .next t) : t.gate = s.gate := by
  have hcommute := step_withGate s s.gate
  rw [withGate_of_gate rfl, h] at hcommute
  have hsame : t = t.withGate s.gate := Host.Outcome.next.inj hcommute
  exact (congrArg State.gate hsame).trans (withGate_gate t s.gate)

theorem invoke_gated {s : State} (budget : Nat) (hgate : s.gate = true) : invoke (budget + 1) s = step s := by
  unfold invoke
  cases h : step s with
  | next t => exact if_pos ((gate_of_step h).trans hgate)
  | fault _ => rfl
  | refused _ => rfl

/-- While the gate is open an invocation goes on after its first instruction. -/
theorem invoke_ungated_of_next {s t : State} (n : Nat) (hgate : s.gate = false) (h : step s = .next t) :
    invoke (n + 1) s = invoke n t := by
  have hopen : ¬ t.gate = true := by simp [gate_of_step h, hgate]
  simp only [invoke, h, if_neg hopen]

theorem resume_gated_eq_invoke_ungated (s : State) (budget n : Nat) :
    resume (budget + 1) n (s.withGate true) = mapNext (fun t => t.withGate true) (invoke n (s.withGate false)) := by
  induction n generalizing s with
  | zero => rfl
  | succ n ih =>
    have hgated : step (s.withGate true) = mapNext (fun t => t.withGate true) (step s) := step_withGate s true
    have hungated : step (s.withGate false) = mapNext (fun t => t.withGate false) (step s) := step_withGate s false
    unfold resume
    rw [invoke_gated budget (withGate_gate s true), hgated]
    cases h : step s with
    | next t =>
      rw [h] at hungated
      rw [invoke_ungated_of_next n (withGate_gate s false) hungated]
      exact ih t
    | fault _ => simp only [invoke, hungated, h, mapNext]
    | refused _ => simp only [invoke, hungated, h, mapNext]

/-- Settles O55: a gated invocation is one step because a step keeps the gate; the equivalence is by induction on the number
of invocations. -/
theorem stepGateChangesNoResult : Obligations.StepGateChangesNoResult := by
  unfold Obligations.StepGateChangesNoResult
  exact ⟨fun _ budget => invoke_gated budget, step_withGate, resume_gated_eq_invoke_ungated⟩

end Sys2Proof
end

section
/-! Loading an image (70_reset_and_hazards.md R200 to R203): the parser gives back the origin and words whose bytes it reads,
and placement writes each word at its own address, for up to 65536 words; the lemmas behind O2. -/

namespace Sys2Proof
open Machine

/-! ### Parsing -/

theorem bigEndianWords_of_bytes (ws : List Word) :
    bigEndianWords (ws.flatMap fun w => [highByte w, lowByte w]) = some ws := by
  induction ws with
  | nil => rfl
  | cons w ws ih => simp only [List.flatMap_cons, List.cons_append, List.nil_append, bigEndianWords, ih, high_append_low]

theorem parseImage_imageBytes {origin : Word} {words : List Word} (hfits : origin.toNat + words.length ≤ 65536) :
    parseImage (some (imageBytes origin words)) = .ok ⟨origin, words⟩ := by
  have hwords : bigEndianWords (imageBytes origin words) = some (origin :: words) :=
    bigEndianWords_of_bytes (origin :: words)
  have hheader : ¬ (imageBytes origin words).length < 2 := by simp [imageBytes]
  simp only [parseImage, if_neg hheader, hwords, if_pos hfits]

theorem launch_of_parseImage (cfg : Config) {file : Option (List Byte)} {img : Image} (h : parseImage file = .ok img) :
    launch cfg file =
      .ok { State.resetWith cfg img.origin with mem := Memory.placeWords [] img.origin img.words } := by
  simp only [launch, h, State.resetWith]

/-! ### Placement -/

theorem add_ofNat_succ (a : Word) (i : Nat) : a + BitVec.ofNat 16 (i + 1) = a + 1#16 + BitVec.ofNat 16 i := by
  rw [BitVec.add_assoc, ← BitVec.ofNat_add, Nat.add_comm 1 i]

/-- Fewer than 65535 addresses above `a` do not wrap round to it. -/
theorem ne_succ_add_ofNat (a : Word) {i : Nat} (hi : i < 65535) : a ≠ a + 1#16 + BitVec.ofNat 16 i := by
  bv_omega

theorem readWord_placeWords_outside (m : Memory) (a b : Word) (ws : List Word)
    (hout : ∀ i < ws.length, b ≠ a + BitVec.ofNat 16 i) : (m.placeWords a ws).readWord b = m.readWord b := by
  induction ws generalizing m a with
  | nil => rfl
  | cons w ws ih =>
    have hhead : b ≠ a := by simpa using hout 0 (Nat.succ_pos _)
    have htail : ∀ i < ws.length, b ≠ a + 1#16 + BitVec.ofNat 16 i := fun i hi =>
      add_ofNat_succ a i ▸ hout (i + 1) (Nat.succ_lt_succ hi)
    calc (m.placeWords a (w :: ws)).readWord b = (m.writeWord a w).readWord b := ih (m.writeWord a w) (a + 1#16) htail
      _ = m.readWord b := Memory.readWord_writeWord_ne m a b w hhead

theorem readWord_placeWords_inside (m : Memory) (a : Word) (ws : List Word) (hlen : ws.length ≤ 65536) (i : Nat)
    (h : i < ws.length) : (m.placeWords a ws).readWord (a + BitVec.ofNat 16 i) = ws[i] := by
  induction ws generalizing m a i with
  | nil => exact absurd h (Nat.not_lt_zero i)
  | cons w ws ih =>
    have htail : ws.length ≤ 65535 := Nat.le_of_succ_le_succ hlen
    cases i with
    | zero =>
      have hout : ∀ j < ws.length, a ≠ a + 1#16 + BitVec.ofNat 16 j := fun j hj =>
        ne_succ_add_ofNat a (hj.trans_le htail)
      calc (m.placeWords a (w :: ws)).readWord (a + 0#16) = (m.placeWords a (w :: ws)).readWord a := by
            rw [BitVec.add_zero]
        _ = (m.writeWord a w).readWord a := readWord_placeWords_outside (m.writeWord a w) (a + 1#16) a ws hout
        _ = w := Memory.readWord_writeWord_same m a w
    | succ i =>
      rw [add_ofNat_succ]
      exact ih (m.writeWord a w) (a + 1#16) (htail.trans (Nat.le_succ _)) i (Nat.lt_of_succ_lt_succ h)

/-- Settles O2: the image parses to its origin and words, and word `i` stands at `origin + i` whatever is placed after it. -/
theorem launchPlacesEveryImageWord : Obligations.LaunchPlacesEveryImageWord := by
  unfold Obligations.LaunchPlacesEveryImageWord
  intro cfg origin words hfits
  have hlen : words.length ≤ 65536 := (Nat.le_add_left _ _).trans hfits
  exact ⟨_, launch_of_parseImage cfg (parseImage_imageBytes hfits), rfl, readWord_placeWords_inside [] origin words hlen⟩

end Sys2Proof
end

section
/-! Encoding (30_encoding.md R73 to R79): the fields of each format's word are the operands it was written from, and the
immediates extend back to the values they were cut from; the lemmas behind O7. -/

namespace Sys2Proof
open Machine

/-! ### The rows no earlier section needed -/

theorem decode_jsrr_of_mask (w : Word) (h : w &&& 0xF800#16 = 0x4000#16) : decode w = .jsrr (w.extractLsb' 6 3) :=
  decode_of_jsrMode_mask h

theorem decode_rti_of_mask (w : Word) (h : w &&& 0xF000#16 = 0x8000#16) : decode w = .rti :=
  decode_of_opcode_mask h

theorem decode_res_of_mask (w : Word) (h : w &&& 0xF000#16 = 0xD000#16) : decode w = .res :=
  decode_of_opcode_mask h

theorem decode_trap_of_mask (w : Word) (h : w &&& 0xF000#16 = 0xF000#16) : decode w = .trap (w.extractLsb' 0 8) :=
  decode_of_opcode_mask h

/-! ### Fields of an appended word -/

/-- A field above the last part of a word is a field of what stands before that part. -/
theorem extractLsb'_append_above {v w lo len : Nat} {x : BitVec v} {y : BitVec w} {z : BitVec len}
    (h : x.extractLsb' (lo - w) len = z) (hlo : w ≤ lo := by decide) : (x ++ y).extractLsb' lo len = z :=
  (BitVec.extractLsb'_append_eq_of_le hlo).trans h

/-- An immediate in range comes back from the field it was cut to (30_encoding.md R74). -/
theorem sext_bits_of_field {n : Nat} {w off : Word} (hfield : w.extractLsb' 0 n = off.setWidth n)
    (hfits : fitsSigned n off = true) (h1 : 1 ≤ n := by decide) (h16 : n ≤ 16 := by decide) :
    sext n (bits w 0 n) = off := by
  rw [sext_bits w n h1 h16, hfield, signExtend_setWidth n off h1 h16 hfits]

/-! ### The operands of each format (R73) -/

section
variable (op : BitVec 4) (r q p : RegIdx) (imm : Word)

@[simp] theorem encBr_nzp (nzp : BitVec 3) : (encBr nzp imm).extractLsb' 9 3 = nzp :=
  extractLsb'_append_above BitVec.extractLsb'_append_eq_right

@[simp] theorem encBr_off9 (nzp : BitVec 3) (h : fitsSigned 9 imm = true) : sext 9 (bits (encBr nzp imm) 0 9) = imm :=
  sext_bits_of_field BitVec.extractLsb'_append_eq_right h

@[simp] theorem encRRR_dr : (encRRR op r q p).extractLsb' 9 3 = r :=
  extractLsb'_append_above (extractLsb'_append_above (extractLsb'_append_above
    BitVec.extractLsb'_append_eq_right))

@[simp] theorem encRRR_sr1 : (encRRR op r q p).extractLsb' 6 3 = q :=
  extractLsb'_append_above (extractLsb'_append_above BitVec.extractLsb'_append_eq_right)

@[simp] theorem encRRR_sr2 : (encRRR op r q p).extractLsb' 0 3 = p :=
  BitVec.extractLsb'_append_eq_right

@[simp] theorem encRRI_dr : (encRRI op r q imm).extractLsb' 9 3 = r :=
  extractLsb'_append_above (extractLsb'_append_above (extractLsb'_append_above
    BitVec.extractLsb'_append_eq_right))

@[simp] theorem encRRI_sr1 : (encRRI op r q imm).extractLsb' 6 3 = q :=
  extractLsb'_append_above (extractLsb'_append_above BitVec.extractLsb'_append_eq_right)

@[simp] theorem encRRI_imm5 (h : fitsSigned 5 imm = true) : sext 5 (bits (encRRI op r q imm) 0 5) = imm :=
  sext_bits_of_field BitVec.extractLsb'_append_eq_right h

@[simp] theorem encPC9_reg : (encPC9 op r imm).extractLsb' 9 3 = r :=
  extractLsb'_append_above BitVec.extractLsb'_append_eq_right

@[simp] theorem encPC9_off9 (h : fitsSigned 9 imm = true) : sext 9 (bits (encPC9 op r imm) 0 9) = imm :=
  sext_bits_of_field BitVec.extractLsb'_append_eq_right h

@[simp] theorem encJ11_off11 (h : fitsSigned 11 imm = true) : sext 11 (bits (encJ11 imm) 0 11) = imm :=
  sext_bits_of_field BitVec.extractLsb'_append_eq_right h

@[simp] theorem encBase_base : (encBase op r).extractLsb' 6 3 = r :=
  extractLsb'_append_above BitVec.extractLsb'_append_eq_right

@[simp] theorem encB6_reg : (encB6 op r q imm).extractLsb' 9 3 = r :=
  extractLsb'_append_above (extractLsb'_append_above BitVec.extractLsb'_append_eq_right)

@[simp] theorem encB6_base : (encB6 op r q imm).extractLsb' 6 3 = q :=
  extractLsb'_append_above BitVec.extractLsb'_append_eq_right

@[simp] theorem encB6_off6 (h : fitsSigned 6 imm = true) : sext 6 (bits (encB6 op r q imm) 0 6) = imm :=
  sext_bits_of_field BitVec.extractLsb'_append_eq_right h

@[simp] theorem encUN_dr : (encUN r q).extractLsb' 9 3 = r :=
  extractLsb'_append_above (extractLsb'_append_above BitVec.extractLsb'_append_eq_right)

@[simp] theorem encUN_sr : (encUN r q).extractLsb' 6 3 = q :=
  extractLsb'_append_above BitVec.extractLsb'_append_eq_right

@[simp] theorem encT_vect (v : Byte) : (encT v).extractLsb' 0 8 = v :=
  BitVec.extractLsb'_append_eq_right

end

/-! ### The round trip -/

/-- The encoder's word is of the instruction's own row of the opcode table. -/
theorem encode_and_mask (i : Instr) : encode i &&& i.row.mask = i.row.pattern :=
  beq_iff_eq.mp (Laws.TableRow.all i).2

/-- The word of `i` is of the row of `i`, so it decodes to an instruction of `i`'s kind; the operands are the fields of
`i`'s format. -/
theorem decode_encode (i : Instr) (hwf : i.wf = true) : decode (encode i) = i := by
  have hrow := encode_and_mask i
  cases i with
  | br nzp off9 => exact (decode_br_of_mask _ hrow).trans (by simp [encode, encBr_off9 off9 nzp hwf])
  | addReg dr sr1 sr2 => exact (decode_addReg_of_mask _ hrow).trans (by simp [encode])
  | addImm dr sr1 imm5 => exact (decode_addImm_of_mask _ hrow).trans (by simp [encode, encRRI_imm5 _ dr sr1 imm5 hwf])
  | ld dr off9 => exact (decode_ld_of_mask _ hrow).trans (by simp [encode, encPC9_off9 _ dr off9 hwf])
  | st sr off9 => exact (decode_st_of_mask _ hrow).trans (by simp [encode, encPC9_off9 _ sr off9 hwf])
  | jsr off11 => exact (decode_jsr_of_mask _ hrow).trans (by simp [encode, encJ11_off11 off11 hwf])
  | jsrr baseR => exact (decode_jsrr_of_mask _ hrow).trans (by simp [encode])
  | andReg dr sr1 sr2 => exact (decode_andReg_of_mask _ hrow).trans (by simp [encode])
  | andImm dr sr1 imm5 => exact (decode_andImm_of_mask _ hrow).trans (by simp [encode, encRRI_imm5 _ dr sr1 imm5 hwf])
  | ldr dr baseR off6 => exact (decode_ldr_of_mask _ hrow).trans (by simp [encode, encB6_off6 _ dr baseR off6 hwf])
  | str sr baseR off6 => exact (decode_str_of_mask _ hrow).trans (by simp [encode, encB6_off6 _ sr baseR off6 hwf])
  | rti => exact decode_rti_of_mask _ hrow
  | notReg dr sr => exact (decode_notReg_of_mask _ hrow).trans (by simp [encode])
  | ldi dr off9 => exact (decode_ldi_of_mask _ hrow).trans (by simp [encode, encPC9_off9 _ dr off9 hwf])
  | sti sr off9 => exact (decode_sti_of_mask _ hrow).trans (by simp [encode, encPC9_off9 _ sr off9 hwf])
  | jmp baseR => exact (decode_jmp_of_mask _ hrow).trans (by simp [encode])
  | res => exact decode_res_of_mask _ hrow
  | lea dr off9 => exact (decode_lea_of_mask _ hrow).trans (by simp [encode, encPC9_off9 _ dr off9 hwf])
  | trap vect => exact (decode_trap_of_mask _ hrow).trans (by simp [encode])

/-- Settles O7: the row's mask picks the kind of the instruction, and each operand is read back from its field. -/
theorem decodeEncodeRoundTrip : Obligations.DecodeEncodeRoundTrip := by
  unfold Obligations.DecodeEncodeRoundTrip
  exact decode_encode

end Sys2Proof
end

section
/-! The four shapes of an instruction: it defines a register, it stores a word, it moves PC, or it is TRAP. For each of the
first three one lemma says every next state it can answer; the frames and the invariant below rest on these. -/

namespace Sys2Proof
open Machine

/-! ### Reads, one after another -/

/-- The state after reads of the addresses `as`, in order (20_memory.md R56). -/
def afterReads (s : State) (as : List Word) : State := as.foldl State.touch s

theorem afterReads_cons (s : State) (a : Word) (as : List Word) :
    afterReads s (a :: as) = afterReads (s.touch a) as := rfl

theorem afterReads_sameCore (s : State) (as : List Word) : SameCore s (afterReads s as) := by
  induction as generalizing s with
  | nil => exact .refl s
  | cons a as ih => exact (SameCore.touch s a).trans (ih (s.touch a))

theorem afterReads_console (s : State) (as : List Word) : (afterReads s as).console = s.console := by
  induction as generalizing s with
  | nil => rfl
  | cons a as ih => exact (ih (s.touch a)).trans (s.touch_console a)

theorem afterReads_mem_wf (s : State) (as : List Word) (h : s.mem.wf) : (afterReads s as).mem.wf := by
  induction as generalizing s with
  | nil => exact h
  | cons a as ih => exact ih (s.touch a) (s.touch_mem_wf a h)

theorem afterReads_of_not_mem {s : State} {as : List Word} (h : s.cfg.kbsrAddr ∉ as) : afterReads s as = s := by
  induction as with
  | nil => rfl
  | cons a as ih =>
    obtain ⟨hne, hnot⟩ := not_or.mp (mt List.mem_cons.mpr h)
    rw [afterReads_cons, s.touch_plain a (Ne.symm hne), ih hnot]

theorem afterReads_sameBytes_keyboard (s : State) (as : List Word) :
    SameBytesOutside s (afterReads s as) [s.cfg.kbsrAddr, s.cfg.kbdrAddr] := by
  induction as generalizing s with
  | nil => exact fun _ _ => rfl
  | cons a as ih =>
    intro k hk
    have htouch : (s.touch a).mem.readByte k = s.mem.readByte k :=
      s.touch_readByte a k (hk _ (by simp)) (hk _ (by simp))
    exact (ih (s.touch a) k hk).trans htouch

/-- Only a read of `KBSR_ADDR` rewrites memory, and then only the two keyboard words (20_memory.md R50, R53). -/
theorem afterReads_sameBytes (s : State) (as : List Word) :
    SameBytesOutside s (afterReads s as) (sampledWords s as) := by
  unfold sampledWords
  by_cases h : s.cfg.kbsrAddr ∈ as
  case pos => rw [if_pos h]; exact afterReads_sameBytes_keyboard s as
  case neg => rw [if_neg h, afterReads_of_not_mem h]; exact fun _ _ => rfl

/-! ### The shape of an instruction -/

/-- The register of an instruction that ends in `R[dr] <- v; setcc(v)`: the operate instructions and the loads. -/
def destReg : Instr → Option RegIdx
  | .addReg dr _ _ | .addImm dr _ _ | .andReg dr _ _ | .andImm dr _ _ | .notReg dr _ => some dr
  | .ld dr _ | .ldr dr _ _ | .ldi dr _ | .lea dr _ => some dr
  | .br _ _ | .st _ _ | .str _ _ _ | .sti _ _ | .jsr _ | .jsrr _ | .jmp _ | .rti | .res | .trap _ => none

/-- The address a store stores to. -/
def storeAddr (s : State) : Instr → Option Word
  | .st _ off => some (s.pcRel off)
  | .str _ baseR off => some (baseOff (s.reg baseR) off)
  | .sti _ off => some (s.indirect off).1
  | _ => none

/-- The addresses a load or a store reads, in order. -/
def readAddrs (s : State) : Instr → List Word
  | .ld _ off => [s.pcRel off]
  | .ldr _ baseR off => [baseOff (s.reg baseR) off]
  | .ldi _ off => [s.pcRel off, (s.indirect off).1]
  | .sti _ off => [s.pcRel off]
  | _ => []

/-- The instructions of 42_control.md. -/
def isControl : Instr → Bool
  | .br _ _ | .jsr _ | .jsrr _ | .jmp _ | .rti | .res => true
  | _ => false

/-- Every instruction has one of the four shapes. -/
theorem instr_shape (i : Instr) (s : State) :
    (∃ dr, destReg i = some dr) ∨ (∃ ea, storeAddr s i = some ea) ∨ isControl i = true ∨ ∃ v, i = .trap v := by
  cases i with
  | addReg | addImm | andReg | andImm | notReg | ld | ldr | ldi | lea => exact .inl ⟨_, rfl⟩
  | st | str | sti => exact .inr (.inl ⟨_, rfl⟩)
  | br | jsr | jsrr | jmp | rti | res => exact .inr (.inr (.inl rfl))
  | trap v => exact .inr (.inr (.inr ⟨v, rfl⟩))

/-- `t` is `u` with an operand register of `i` found to hold no value in it. -/
def OperandUnvalued (i : Instr) (u t : State) : Prop := ∃ r ∈ operandRegs i, Unvalued r u t

theorem OperandUnvalued.first {i : Instr} {r : RegIdx} {rs : List RegIdx} {u t : State} (hi : operandRegs i = r :: rs)
    (h : Unvalued r u t) : OperandUnvalued i u t :=
  ⟨r, hi ▸ List.mem_cons_self, h⟩

theorem OperandUnvalued.second {i : Instr} {r q : RegIdx} {u t : State} (hi : operandRegs i = [q, r])
    (h : Unvalued r u t) : OperandUnvalued i u t :=
  ⟨r, by simp [hi], h⟩

/-- Everything an operate instruction or a load can do. -/
theorem exec_next_of_destReg {i : Instr} {dr : RegIdx} {s t : State} (hi : destReg i = some dr)
    (h : exec i s = .next t) :
    (∃ v, t = (afterReads s (readAddrs s i)).define dr v) ∨ OperandUnvalued i s t := by
  cases i with
  | addReg =>
    cases hi
    rcases execAddReg_next h with h | h1 | h2
    · exact .inl ⟨_, h⟩
    · exact .inr (.first rfl h1)
    · exact .inr (.second rfl h2)
  | andReg =>
    cases hi
    rcases execAndReg_next h with h | h1 | h2
    · exact .inl ⟨_, h⟩
    · exact .inr (.first rfl h1)
    · exact .inr (.second rfl h2)
  | addImm => cases hi; exact (execAddImm_next h).imp (fun h => ⟨_, h⟩) (.first rfl)
  | andImm => cases hi; exact (execAndImm_next h).imp (fun h => ⟨_, h⟩) (.first rfl)
  | notReg => cases hi; exact (execNot_next h).imp (fun h => ⟨_, h⟩) (.first rfl)
  | ldr => cases hi; exact (execLdr_next h).imp (fun h => ⟨_, h⟩) (.first rfl)
  | ld => cases hi; exact .inl ⟨_, execLd_next h⟩
  | ldi => cases hi; exact .inl ⟨_, execLdi_next h⟩
  | lea => cases hi; exact .inl ⟨_, execLea_next h⟩
  | br | st | str | sti | jsr | jsrr | jmp | rti | res | trap => cases hi

/-- Everything a store can do. -/
theorem exec_next_of_storeAddr {i : Instr} {ea : Word} {s t : State} (hi : storeAddr s i = some ea)
    (h : exec i s = .next t) :
    (∃ v, t = (afterReads s (readAddrs s i)).memWrite ea v) ∨ OperandUnvalued i (afterReads s (readAddrs s i)) t := by
  cases i with
  | st =>
    cases hi
    exact (execSt_next h).imp (fun h => ⟨_, h⟩) (.first rfl)
  | str =>
    cases hi
    rcases execStr_next h with h | hbase | hsource
    · exact .inl ⟨_, h⟩
    · exact .inr (.first rfl hbase)
    · exact .inr (.second rfl hsource)
  | sti =>
    cases hi
    exact (execSti_next h).imp (fun h => ⟨_, h⟩) (.first rfl)
  | addReg | addImm | andReg | andImm | notReg | ld | ldr | ldi | lea | br | jsr | jsrr | jmp | rti | res | trap =>
    cases hi

/-- Everything a control instruction can do in `u`, the state as fetched or with the link written: `PC <- v`, the fault of
its base register, or the unsupported path. -/
def ControlEnds (i : Instr) (u t : State) : Prop :=
  (∃ v, t = u.setPc v) ∨ OperandUnvalued i u t ∨
    ((i = .rti ∨ i = .res) ∧ ∃ op, t = u.unsupported (.unsupportedOpcode op u.fetchAddr))

theorem exec_next_of_isControl {i : Instr} {s t : State} (hi : isControl i = true) (h : exec i s = .next t) :
    ControlEnds i s t ∨ (writtenRegs s.cfg i = [linkReg] ∧ ControlEnds i (s.setReg linkReg s.pc) t) := by
  cases i with
  | br =>
    rcases execBr_next h with ⟨-, h⟩ | ⟨-, h⟩
    · exact .inl (.inl ⟨_, h⟩)
    · exact .inl (.inl ⟨s.pc, h⟩)
  | jsr => exact .inr ⟨rfl, .inl ⟨_, execJsr_next h⟩⟩
  | jsrr =>
    rcases execJsrr_next h with ⟨v, h, -⟩ | ⟨-, hlinked⟩ | ⟨-, hbase⟩
    · exact .inr ⟨rfl, .inl ⟨v, h⟩⟩
    · exact .inr ⟨rfl, .inr (.inl (.first rfl hlinked))⟩
    · exact .inl (.inr (.inl (.first rfl hbase)))
  | jmp =>
    rcases execJmp_next h with h | hbase
    · exact .inl (.inl ⟨_, h⟩)
    · exact .inl (.inr (.inl (.first rfl hbase)))
  | rti => exact .inl (.inr (.inr ⟨.inl rfl, _, execRti_next h⟩))
  | res => exact .inl (.inr (.inr ⟨.inr rfl, _, execRes_next h⟩))
  | addReg | addImm | andReg | andImm | notReg | ld | ldr | ldi | lea | st | str | sti | trap => cases hi

end Sys2Proof
end

section
/-! The invariant through a step (10_state.md, 60_exceptions.md R175): one rule per state operation, then one lemma per
instruction shape; the lemmas behind O59. Faults and HALT ask for more than `State.Inv`: only a block that runs and has no
fault yet may raise one or halt, which `Live` carries through the operations of one instruction. -/

namespace Sys2Proof
open Machine

/-- A block in the middle of an instruction: the invariant, still running, no fault raised. -/
structure Live (s : State) : Prop where
  inv : s.Inv
  running : s.running = true
  unfaulted : s.fault = none

/-! ### One rule per state operation -/

/-- Reads, emitted bytes and consumed input leave all that the invariant speaks of, but for memory. -/
theorem Live.of_sameCore {s t : State} (h : Live s) (hcore : SameCore s t) (hmem : t.mem.wf) : Live t := by
  refine ⟨?_, hcore.running.trans h.running, hcore.fault.trans h.unfaulted⟩
  constructor
  · exact hmem
  · exact hcore.cond ▸ h.inv.cond_oneHot
  · exact hcore.written ▸ h.inv.written_rising
  · exact hcore.written ▸ h.inv.written_bound
  · rw [hcore.cfg, hcore.written]; exact h.inv.written_policy
  · intro hzero r
    rw [State.regHasValue_congr hcore.hasValue r]
    exact h.inv.regs_valued (hcore.cfg ▸ hzero) r
  · rw [hcore.cfg, hcore.fault]; exact h.inv.fault_allowed
  · rw [hcore.running, hcore.fault]; exact h.inv.fault_running

theorem Live.afterReads {s : State} (h : Live s) (as : List Word) : Live (afterReads s as) :=
  h.of_sameCore (afterReads_sameCore s as) (afterReads_mem_wf s as h.inv.mem_wf)

theorem Live.emit {s : State} (h : Live s) (b : Byte) : Live (s.emit b) :=
  h.of_sameCore (.emit s b) h.inv.mem_wf

theorem Live.withKeys {s : State} (h : Live s) (ks : List (Option Byte)) : Live { s with keys := ks } :=
  h.of_sameCore ⟨rfl, rfl, rfl, rfl, rfl, rfl, rfl, rfl, rfl, rfl, rfl⟩ h.inv.mem_wf

theorem Live.setPc {s : State} (h : Live s) (v : Word) : Live (s.setPc v) :=
  ⟨{ h.inv with }, h.running, h.unfaulted⟩

/-- A written register holds a value (10_state.md R38), and the others keep theirs. -/
theorem regHasValue_setReg_of_regHasValue {s : State} {q : RegIdx} (h : s.regHasValue q = true) (r : RegIdx) (v : Word) :
    (s.setReg r v).regHasValue q = true := by
  by_cases hq : q = r
  case pos => subst hq; exact s.regHasValue_setReg_same q v
  case neg => exact (s.regHasValue_setReg_ne r q v hq).trans h

theorem Live.setReg {s : State} (h : Live s) (r : RegIdx) (v : Word) : Live (s.setReg r v) :=
  ⟨{ h.inv with
      regs_valued := fun hzero q => regHasValue_setReg_of_regHasValue (h.inv.regs_valued hzero q) r v },
    h.running, h.unfaulted⟩

theorem Live.define {s : State} (h : Live s) (r : RegIdx) (v : Word) : Live (s.define r v) :=
  ⟨{ (h.setReg r v).inv with cond_oneHot := condOf_oneHot v }, h.running, h.unfaulted⟩

/-- Recording an address leaves `written` a rising list of addresses, used under its policy only (10_state.md R33). -/
theorem noteWritten_inv {s : State} (h : s.Inv) (a : Word) : (s.noteWritten a).Inv := by
  cases hpolicy : s.cfg.smcPolicy with
  | fault =>
    have hw : (s.noteWritten a).written = insertAddr s.written a.toNat := by rw [State.noteWritten_written, hpolicy]
    exact { h with
      written_rising := hw ▸ insertAddr_rising _ _ h.written_rising
      written_bound := by
        intro b hb
        rw [hw, mem_insertAddr] at hb
        exact hb.elim (fun e => e ▸ a.isLt) (h.written_bound b)
      written_policy := fun hcoherent => by rw [State.noteWritten_cfg, hpolicy] at hcoherent; cases hcoherent }
  | coherent =>
    have hw : (s.noteWritten a).written = s.written := by rw [State.noteWritten_written, hpolicy]
    exact { h with
      written_rising := hw ▸ h.written_rising
      written_bound := hw ▸ h.written_bound
      written_policy := hw ▸ h.written_policy }

theorem Live.memWrite {s : State} (h : Live s) (a v : Word) : Live (s.memWrite a v) := by
  have hstored : State.Inv { s with mem := s.mem.writeWord a v } :=
    { h.inv with mem_wf := Memory.writeWord_wf _ a v h.inv.mem_wf }
  exact ⟨noteWritten_inv hstored a, h.running, h.unfaulted⟩

theorem Live.raise {s : State} (h : Live s) {k : FaultRecord} (hk : k.allowedBy s.cfg) : (s.raise k).Inv :=
  { h.inv with
    fault_allowed := fun _ hr => Option.some.inj hr ▸ hk
    fault_running := fun _ => h.running }

theorem Live.unvalued {s t : State} {r : RegIdx} (h : Live s) (hr : Unvalued r s t) : t.Inv := by
  obtain ⟨hnone, rfl⟩ := hr
  refine h.raise (k := .unwrittenRegister r _) ?_
  cases hreset : s.cfg.resetGpr with
  | zero => exact absurd ((h.inv.regs_valued hreset r).symm.trans hnone) Bool.noConfusion
  | undefined => exact hreset

/-- The unsupported path raises under `UNSUPPORTED_POLICY = fault` only, where its two kinds are allowed. -/
theorem Live.unsupported {s : State} (h : Live s) {k : FaultRecord}
    (hk : s.cfg.unsupportedPolicy = .fault → k.allowedBy s.cfg) : (s.unsupported k).Inv := by
  have hdiag : Live (s.diag k) := ⟨{ h.inv with }, h.running, h.unfaulted⟩
  unfold State.unsupported
  cases hpolicy : s.cfg.unsupportedPolicy with
  | fault => exact hdiag.raise (hk hpolicy)
  | goOn => exact hdiag.inv

/-- Halting is allowed because no fault is set (70_reset_and_hazards.md R210). -/
theorem Live.halt {s : State} (h : Live s) (bs : List Byte) :
    State.Inv { s with console := s.console ++ bs, running := false } :=
  { h.inv with fault_running := fun hfault => absurd h.unfaulted hfault }

/-! ### Instructions and steps -/

theorem Live.operandUnvalued {i : Instr} {s t : State} (h : Live s) (ht : OperandUnvalued i s t) : t.Inv := by
  obtain ⟨r, -, hr⟩ := ht
  exact h.unvalued hr

theorem Live.controlEnds {i : Instr} {s t : State} (h : Live s) (ht : ControlEnds i s t) : t.Inv := by
  rcases ht with ⟨v, rfl⟩ | hbase | ⟨-, op, rfl⟩
  · exact (h.setPc v).inv
  · exact h.operandUnvalued hbase
  · exact h.unsupported id

/-- What a string routine leaves: its loop's state, or that state with `UnterminatedString`, which every setting allows. -/
theorem Live.stringEnd {s u : State} (h : Live s) (hcore : SameCore s u) (hmem : u.mem.wf) (found : Bool) (a : Word) :
    State.Inv (if found then u else u.raise (.unterminatedString a)) := by
  have hu : Live u := h.of_sameCore hcore hmem
  cases found with
  | true => exact hu.inv
  | false => exact hu.raise trivial

theorem Live.trapRoutine {v : Byte} {s t : State} (h : Live s) (ht : trapRoutine v s = .next t) : t.Inv := by
  rcases trapRoutine_cases v with ⟨-, hv⟩ | ⟨-, hv⟩ | ⟨-, hv⟩ | ⟨-, hv⟩ | ⟨-, hv⟩ | ⟨-, hv⟩ | ⟨-, hv⟩ <;> rw [hv] at ht
  · obtain ⟨c, ks, -, rfl⟩ := trapGetc_next ht
    exact ((h.withKeys ks).define _ _).inv
  · rcases trapOut_next ht with rfl | hr0
    · exact (h.emit _).inv
    · exact h.unvalued hr0
  · rcases trapPuts_next ht with ⟨found, u, hcore, hloop, rfl⟩ | hr0
    · exact h.stringEnd hcore (hloop ▸ putsLoop_mem_wf 65536 (s.reg 0#3) s h.inv.mem_wf :) found _
    · exact h.unvalued hr0
  · rcases trapIn_next ht with ⟨-, c, ks, -, rfl⟩ | ⟨-, rfl⟩
    · exact (((h.withKeys ks).emit c).define _ _).inv
    · exact h.inv
  · rcases trapPutsp_next ht with ⟨found, u, hcore, hloop, rfl⟩ | hr0
    · exact h.stringEnd hcore (hloop ▸ putspLoop_mem_wf 65536 (s.reg 0#3) s h.inv.mem_wf :) found _
    · exact h.unvalued hr0
  · cases trapHalt_next ht
    exact h.halt _
  · cases trapUnknown_next ht
    exact h.unsupported id

theorem Live.exec {i : Instr} {s t : State} (h : Live s) (ht : exec i s = .next t) : t.Inv := by
  rcases instr_shape i s with ⟨dr, hi⟩ | ⟨ea, hi⟩ | hi | ⟨v, rfl⟩
  · rcases exec_next_of_destReg hi ht with ⟨v, rfl⟩ | hunvalued
    · exact ((h.afterReads _).define dr v).inv
    · exact h.operandUnvalued hunvalued
  · rcases exec_next_of_storeAddr hi ht with ⟨v, rfl⟩ | hunvalued
    · exact ((h.afterReads _).memWrite ea v).inv
    · exact (h.afterReads _).operandUnvalued hunvalued
  · rcases exec_next_of_isControl hi ht with hends | ⟨-, hends⟩
    · exact h.controlEnds hends
    · exact (h.setReg linkReg s.pc).controlEnds hends
  · exact (h.setReg linkReg s.pc).trapRoutine ht

/-- A block that may step is live, and so is the state after its fetch. -/
theorem Inv.live_fetch {s : State} (h : s.Inv) (hcan : CanStep s) : Live s ∧ Live s.fetch.2 := by
  obtain ⟨hfault, hrunning, -⟩ := hcan
  have hlive : Live s := ⟨h, hrunning, hfault⟩
  exact ⟨hlive, (hlive.afterReads [s.pc]).setPc _⟩

theorem Inv.step {s t : State} (h : s.Inv) (ht : step s = .next t) : t.Inv := by
  obtain ⟨hblocked, hstep⟩ := step_next ht
  obtain ⟨hlive, hfetched⟩ := Inv.live_fetch h (s.blocked_eq_none.mp hblocked)
  rcases hstep with ⟨hforbidden, rfl⟩ | ⟨-, hexec⟩
  · refine hlive.raise (k := .selfModifyingCode s.pc) ?_
    unfold State.fetchForbidden at hforbidden
    cases hpolicy : s.cfg.smcPolicy with
    | fault => exact hpolicy
    | coherent => simp [hpolicy] at hforbidden
  · exact hfetched.exec hexec

/-- Settles O59: the fetch check raises a fault its policy allows, and an instruction runs on a live state. -/
theorem stepKeepsTheInvariant : Obligations.StepKeepsTheInvariant := by
  unfold Obligations.StepKeepsTheInvariant
  exact fun _ _ => Inv.step

end Sys2Proof
end

section
/-! The string routines PUTS and PUTSP (43_trap.md R154, R156): emitting a byte commutes with reading, so a loop is its reads
followed by the bytes it emits; with and without a terminator; the lemmas behind O42, O44 and O45. -/

namespace Sys2Proof
open Machine

/-! ### Reads and emitted bytes -/

theorem emitted_sameCore (s : State) (bs : List Byte) : SameCore s (bs.foldl State.emit s) := by
  rw [foldl_emit]
  constructor <;> rfl

theorem afterReads_emit (s : State) (b : Byte) (as : List Word) :
    afterReads (s.emit b) as = (afterReads s as).emit b := by
  induction as generalizing s with
  | nil => rfl
  | cons a as ih => exact ih (s.touch a)

theorem readSeq_succ (s : State) (a : Word) (n : Nat) :
    readSeq s a (n + 1) = ((s.memRead a).1 :: (readSeq (s.touch a) (a + 1#16) n).1, (readSeq (s.touch a) (a + 1#16) n).2) :=
  rfl

theorem readSeq_emit (s : State) (b : Byte) (a : Word) (n : Nat) :
    readSeq (s.emit b) a n = ((readSeq s a n).1, (readSeq s a n).2.emit b) := by
  induction n generalizing s a with
  | zero => rfl
  | succ n ih =>
    have htouch : (s.emit b).touch a = (s.touch a).emit b := rfl
    rw [readSeq_succ, htouch, ih (s.touch a)]
    rfl

theorem readSeq_snd_eq_afterReads (s : State) (a : Word) (n : Nat) : ∃ as, (readSeq s a n).2 = afterReads s as := by
  induction n generalizing s a with
  | zero => exact ⟨[], rfl⟩
  | succ n ih =>
    obtain ⟨as, h⟩ := ih (s.touch a) (a + 1#16)
    exact ⟨a :: as, h⟩

/-! ### One turn of each loop -/

theorem putsLoop_of_zero {s : State} {a : Word} (h : (s.memRead a).1 = 0x0000#16) (n : Nat) :
    putsLoop (n + 1) a s = (true, s.touch a) := if_pos h

theorem putsLoop_of_ne_zero {s : State} {a : Word} (h : (s.memRead a).1 ≠ 0x0000#16) (n : Nat) :
    putsLoop (n + 1) a s = putsLoop n (a + 1#16) ((s.touch a).emit (lowByte (s.memRead a).1)) := if_neg h

theorem putspLoop_of_low_zero {s : State} {a : Word} (h : lowByte (s.memRead a).1 = 0x00#8) (n : Nat) :
    putspLoop (n + 1) a s = (true, s.touch a) := if_pos h

theorem putspLoop_of_high_zero {s : State} {a : Word} (hlow : lowByte (s.memRead a).1 ≠ 0x00#8)
    (hhigh : highByte (s.memRead a).1 = 0x00#8) (n : Nat) :
    putspLoop (n + 1) a s = (true, (s.touch a).emit (lowByte (s.memRead a).1)) :=
  (if_neg hlow).trans (if_pos hhigh)

theorem putspLoop_of_ne_zero {s : State} {a : Word} (hlow : lowByte (s.memRead a).1 ≠ 0x00#8)
    (hhigh : highByte (s.memRead a).1 ≠ 0x00#8) (n : Nat) :
    putspLoop (n + 1) a s = putspLoop n (a + 1#16)
      (((s.touch a).emit (lowByte (s.memRead a).1)).emit (highByte (s.memRead a).1)) :=
  (if_neg hlow).trans (if_neg hhigh)

/-! ### Everything a loop can do: some reads, then some bytes -/

theorem putsLoop_reads_then_emits (n : Nat) (a : Word) (s : State) :
    ∃ (as : List Word) (bs : List Byte), (putsLoop n a s).2 = bs.foldl State.emit (afterReads s as) := by
  induction n generalizing a s with
  | zero => exact ⟨[], [], rfl⟩
  | succ n ih =>
    by_cases hz : (s.memRead a).1 = 0x0000#16
    case pos => exact ⟨[a], [], congrArg Prod.snd (putsLoop_of_zero hz n)⟩
    case neg =>
      obtain ⟨as, bs, h⟩ := ih (a + 1#16) ((s.touch a).emit (lowByte (s.memRead a).1))
      rw [afterReads_emit] at h
      exact ⟨a :: as, _ :: bs, (congrArg Prod.snd (putsLoop_of_ne_zero hz n)).trans h⟩

theorem putspLoop_reads_then_emits (n : Nat) (a : Word) (s : State) :
    ∃ (as : List Word) (bs : List Byte), (putspLoop n a s).2 = bs.foldl State.emit (afterReads s as) := by
  induction n generalizing a s with
  | zero => exact ⟨[], [], rfl⟩
  | succ n ih =>
    by_cases hlow : lowByte (s.memRead a).1 = 0x00#8
    case pos => exact ⟨[a], [], congrArg Prod.snd (putspLoop_of_low_zero hlow n)⟩
    case neg =>
      by_cases hhigh : highByte (s.memRead a).1 = 0x00#8
      case pos => exact ⟨[a], [_], congrArg Prod.snd (putspLoop_of_high_zero hlow hhigh n)⟩
      case neg =>
        obtain ⟨as, bs, h⟩ := ih (a + 1#16)
          (((s.touch a).emit (lowByte (s.memRead a).1)).emit (highByte (s.memRead a).1))
        rw [afterReads_emit, afterReads_emit] at h
        exact ⟨a :: as, _ :: _ :: bs, (congrArg Prod.snd (putspLoop_of_ne_zero hlow hhigh n)).trans h⟩

/-! ### PUTS -/

theorem putsLoop_of_terminated {ws : List Word} {n : Nat} {a : Word} {s : State} (hlen : ws.length < n)
    (hread : (readSeq s a (ws.length + 1)).1 = ws ++ [0x0000#16]) (hne : ∀ w ∈ ws, w ≠ 0x0000#16) :
    putsLoop n a s = (true, (ws.map lowByte).foldl State.emit (readSeq s a (ws.length + 1)).2) := by
  obtain ⟨m, rfl⟩ : ∃ m, n = m + 1 := ⟨n - 1, by omega⟩
  induction ws generalizing m a s with
  | nil => exact putsLoop_of_zero (List.cons.inj hread).1 m
  | cons w ws ih =>
    obtain ⟨hhead, htail⟩ := List.cons.inj hread
    have hw : (s.memRead a).1 ≠ 0x0000#16 := hhead ▸ hne w List.mem_cons_self
    obtain ⟨m, rfl⟩ : ∃ k, m = k + 1 := ⟨m - 1, by simp at hlen; omega⟩
    have hreads := readSeq_emit (s.touch a) (lowByte w) (a + 1#16) (ws.length + 1)
    have hrest := ih (s := (s.touch a).emit (lowByte w)) (a := a + 1#16) (by rw [hreads]; exact htail)
      (fun x hx => hne x (List.mem_cons_of_mem w hx)) m (by simp at hlen; omega)
    rw [putsLoop_of_ne_zero hw, hhead, hrest, hreads]
    rfl

theorem putsLoop_of_unterminated {n : Nat} {a : Word} {s : State} (hne : ∀ w ∈ (readSeq s a n).1, w ≠ 0x0000#16) :
    putsLoop n a s = (false, ((readSeq s a n).1.map lowByte).foldl State.emit (readSeq s a n).2) := by
  induction n generalizing a s with
  | zero => rfl
  | succ n ih =>
    have hw : (s.memRead a).1 ≠ 0x0000#16 := hne _ List.mem_cons_self
    have hreads := readSeq_emit (s.touch a) (lowByte (s.memRead a).1) (a + 1#16) n
    rw [putsLoop_of_ne_zero hw, ih (by rw [hreads]; exact fun w hmem => hne w (List.mem_cons_of_mem _ hmem)), hreads]
    rfl

/-! ### PUTSP -/

/-- The two characters of a word, in PUTSP's order. -/
def wordBytes (w : Word) : List Byte := [lowByte w, highByte w]

/-- The characters of the last word: none when it ends in its low byte, one when it ends in its high byte. -/
def lastBytes (z : Word) : List Byte := if lowByte z = 0x00#8 then [] else [lowByte z]

theorem putspLoop_of_last {s : State} {a : Word}
    (hz : lowByte (s.memRead a).1 = 0x00#8 ∨ highByte (s.memRead a).1 = 0x00#8) (n : Nat) :
    putspLoop (n + 1) a s = (true, (lastBytes (s.memRead a).1).foldl State.emit (s.touch a)) := by
  unfold lastBytes
  by_cases hlow : lowByte (s.memRead a).1 = 0x00#8
  case pos => rw [putspLoop_of_low_zero hlow, if_pos hlow]; rfl
  case neg => rw [putspLoop_of_high_zero hlow (hz.resolve_left hlow), if_neg hlow]; rfl

theorem putspLoop_of_terminated {ws : List Word} {z : Word} {n : Nat} {a : Word} {s : State} (hlen : ws.length < n)
    (hread : (readSeq s a (ws.length + 1)).1 = ws ++ [z])
    (hne : ∀ w ∈ ws, lowByte w ≠ 0x00#8 ∧ highByte w ≠ 0x00#8) (hz : lowByte z = 0x00#8 ∨ highByte z = 0x00#8) :
    putspLoop n a s =
      (true, (ws.flatMap wordBytes ++ lastBytes z).foldl State.emit (readSeq s a (ws.length + 1)).2) := by
  obtain ⟨m, rfl⟩ : ∃ m, n = m + 1 := ⟨n - 1, by omega⟩
  induction ws generalizing m a s with
  | nil =>
    obtain rfl : (s.memRead a).1 = z := (List.cons.inj hread).1
    exact putspLoop_of_last hz m
  | cons w ws ih =>
    obtain ⟨hhead, htail⟩ := List.cons.inj hread
    obtain ⟨hlow, hhigh⟩ := hne w List.mem_cons_self
    rw [← hhead] at hlow hhigh
    obtain ⟨m, rfl⟩ : ∃ k, m = k + 1 := ⟨m - 1, by simp at hlen; omega⟩
    have hreads : readSeq (((s.touch a).emit (lowByte w)).emit (highByte w)) (a + 1#16) (ws.length + 1) = _ :=
      (readSeq_emit _ _ _ _).trans (by rw [readSeq_emit])
    have hrest := ih (s := ((s.touch a).emit (lowByte w)).emit (highByte w)) (a := a + 1#16)
      (by rw [hreads]; exact htail) (fun x hx => hne x (List.mem_cons_of_mem w hx)) m (by simp at hlen; omega)
    rw [putspLoop_of_ne_zero hlow hhigh, hhead, hrest, hreads]
    rfl

/-- A read of the status word gives a word with a zero byte: `0x8000`, `0x0000`, or, where `KBDR_ADDR` is the same address,
the zero-extended key (20_memory.md R50). -/
theorem zero_byte_of_status_read (s : State) :
    lowByte (s.memRead s.cfg.kbsrAddr).1 = 0x00#8 ∨ highByte (s.memRead s.cfg.kbsrAddr).1 = 0x00#8 := by
  rw [s.memRead_fst]
  rcases s.touch_cases s.cfg.kbsrAddr with ⟨hne, -⟩ | ⟨-, c, ks, -, h⟩ | ⟨-, -, h⟩
  · exact absurd rfl hne
  · rw [h]
    by_cases heq : s.cfg.kbsrAddr = s.cfg.kbdrAddr
    case pos =>
      refine .inr ?_
      rw [heq, Memory.readWord_writeWord_same]
      exact BitVec.eq_of_toNat_eq (by simp [highByte, Nat.shiftRight_eq_div_pow]; omega)
    case neg => exact .inl (by rw [Memory.readWord_writeWord_ne _ _ _ _ heq, Memory.readWord_writeWord_same]; decide)
  · exact .inl (by rw [h, Memory.readWord_writeWord_same]; decide)

/-- Once the words of a PUTSP loop take in `KBSR_ADDR`, it ends. -/
theorem putspLoop_found {n j : Nat} {a : Word} {s : State} (hj : j < n)
    (hstatus : a + BitVec.ofNat 16 j = s.cfg.kbsrAddr) : (putspLoop n a s).1 = true := by
  obtain ⟨m, rfl⟩ : ∃ m, n = m + 1 := ⟨n - 1, by omega⟩
  induction j generalizing m a s with
  | zero =>
    obtain rfl : a = s.cfg.kbsrAddr := (BitVec.add_zero a).symm.trans hstatus
    exact congrArg Prod.fst (putspLoop_of_last (zero_byte_of_status_read s) m)
  | succ j ih =>
    by_cases hz : lowByte (s.memRead a).1 = 0x00#8 ∨ highByte (s.memRead a).1 = 0x00#8
    case pos => exact congrArg Prod.fst (putspLoop_of_last hz m)
    case neg =>
      obtain ⟨hlow, hhigh⟩ := not_or.mp hz
      obtain ⟨m, rfl⟩ : ∃ k, m = k + 1 := ⟨m - 1, by omega⟩
      rw [putspLoop_of_ne_zero hlow hhigh]
      refine ih ?_ m (by omega)
      exact (add_ofNat_succ a j).symm.trans hstatus

/-! ### The routines -/

/-- The link register is not R0, so entering a TRAP leaves R0 to be read. -/
theorem enterTrap_readReg_zero {s : State} (h : s.regHasValue 0#3 = true) (k : Word → Result) :
    s.enterTrap.readReg 0#3 k = k (s.reg 0#3) := by
  have hvalue : s.enterTrap.regHasValue 0#3 = true := (s.regHasValue_setReg_ne _ _ _ (by decide)).trans h
  rw [State.readReg_of_hasValue _ _ _ hvalue]
  exact congrArg k (s.reg_setReg_ne linkReg 0#3 s.pc (by decide))

/-- What a TRAP that keeps the core of the state leaves: the link in R7, and the rest as before. -/
theorem sameCore_enterTrap {s t : State} (h : SameCore s.enterTrap t) :
    t.reg 7#3 = s.pc ∧ t.reg 0#3 = s.reg 0#3 ∧ t.pc = s.pc ∧ t.cond = s.cond ∧ t.fault = s.fault :=
  ⟨(State.reg_congr h.regs _).trans (s.reg_setReg_same linkReg s.pc),
    (State.reg_congr h.regs _).trans (s.reg_setReg_ne linkReg 0#3 s.pc (by decide)), h.pc, h.cond, h.fault⟩

/-- Reads from a TRAP's entry on, then bytes emitted: what a string routine's loop leaves. -/
theorem readSeq_emitted_sameCore (s : State) (a : Word) (n : Nat) (bs : List Byte) :
    SameCore s (bs.foldl State.emit (readSeq s a n).2) := by
  obtain ⟨as, h⟩ := readSeq_snd_eq_afterReads s a n
  rw [h]
  exact (afterReads_sameCore s as).trans (emitted_sameCore _ bs)

theorem readSeq_emitted_console (s : State) (a : Word) (n : Nat) (bs : List Byte) :
    (bs.foldl State.emit (readSeq s a n).2).console = s.console ++ bs := by
  obtain ⟨as, h⟩ := readSeq_snd_eq_afterReads s a n
  rw [h, foldl_emit]
  exact congrArg (· ++ bs) (afterReads_console s as)

theorem emitted_mem (s : State) (bs : List Byte) : (bs.foldl State.emit s).mem = s.mem := by rw [foldl_emit]

theorem emitted_keys (s : State) (bs : List Byte) : (bs.foldl State.emit s).keys = s.keys := by rw [foldl_emit]

theorem exec_puts {s : State} (h : s.regHasValue 0#3 = true) :
    exec (.trap 0x22#8) s = stringEnd (s.reg 0#3) (putsLoop 65536 (s.reg 0#3) s.enterTrap) :=
  enterTrap_readReg_zero h fun a => stringEnd a (putsLoop 65536 a s.enterTrap)

theorem exec_putsp {s : State} (h : s.regHasValue 0#3 = true) :
    exec (.trap 0x24#8) s = stringEnd (s.reg 0#3) (putspLoop 65536 (s.reg 0#3) s.enterTrap) :=
  enterTrap_readReg_zero h fun a => stringEnd a (putspLoop 65536 a s.enterTrap)

/-- Settles O42: the loop stops at the zero word, in the state after the reads with the low bytes emitted. -/
theorem putsEmitsTheString : Obligations.PutsEmitsTheString := by
  unfold Obligations.PutsEmitsTheString
  intro s ws h0 hlen hread hne
  have hcore := readSeq_emitted_sameCore s.enterTrap (s.reg 0#3) (ws.length + 1) (ws.map lowByte)
  obtain ⟨hlink, hr0, hpc, hcond, hfault⟩ := sameCore_enterTrap hcore
  refine ⟨_, ?_, readSeq_emitted_console s.enterTrap _ _ _, hlink, hr0, hpc, hcond, hfault, emitted_mem _ _, emitted_keys _ _⟩
  rw [exec_puts h0, putsLoop_of_terminated hlen hread hne]
  rfl

/-- Settles O44: the loop stops at the word with a zero byte, in the state after the reads with the bytes emitted. -/
theorem putspEmitsTheString : Obligations.PutspEmitsTheString := by
  unfold Obligations.PutspEmitsTheString
  intro s ws z h0 hlen hread hne hz
  have hcore := readSeq_emitted_sameCore s.enterTrap (s.reg 0#3) (ws.length + 1) (ws.flatMap wordBytes ++ lastBytes z)
  obtain ⟨hlink, hr0, hpc, hcond, hfault⟩ := sameCore_enterTrap hcore
  refine ⟨_, ?_, ?_, hlink, hr0, hpc, hcond, hfault, emitted_mem _ _, emitted_keys _ _⟩
  · rw [exec_putsp h0, putspLoop_of_terminated hlen hread hne hz]
    rfl
  · exact (readSeq_emitted_console s.enterTrap _ _ _).trans (List.append_assoc _ _ _).symm

/-- With no zero word among `n`, the loop's state has the fault, its bytes emitted. -/
theorem stringEnd_of_unterminated {s : State} {a : Word} {n : Nat}
    (hne : ∀ w ∈ (readSeq s.enterTrap a n).1, w ≠ 0x0000#16) :
    ∃ t, stringEnd a (putsLoop n a s.enterTrap) = .next t ∧ t.fault = some (.unterminatedString a) ∧
      t.console = s.console ++ (readSeq s.enterTrap a n).1.map lowByte ∧ t.reg 7#3 = s.pc ∧ t.pc = s.pc ∧
      t.cond = s.cond := by
  have hcore := readSeq_emitted_sameCore s.enterTrap a n ((readSeq s.enterTrap a n).1.map lowByte)
  obtain ⟨hlink, -, hpc, hcond, -⟩ := sameCore_enterTrap hcore
  exact ⟨_, congrArg (stringEnd a) (putsLoop_of_unterminated hne), State.raise_fault _ _,
    readSeq_emitted_console s.enterTrap a n _, hlink, hpc, hcond⟩

/-- Settles O45: without a zero word PUTS uses up its 65,536 words; PUTSP's words take in every address, `KBSR_ADDR` too. -/
theorem stringRoutinesWithoutTerminator : Obligations.StringRoutinesWithoutTerminator := by
  unfold Obligations.StringRoutinesWithoutTerminator
  refine fun s h0 => ⟨fun hne => ?puts, ?putsp⟩
  case puts => rw [exec_puts h0]; exact stringEnd_of_unterminated hne
  case putsp =>
    have hstatus : s.reg 0#3 + BitVec.ofNat 16 (s.cfg.kbsrAddr - s.reg 0#3).toNat = s.enterTrap.cfg.kbsrAddr := by
      rw [BitVec.ofNat_toNat, BitVec.setWidth_eq, add_sub_cancel]
      rfl
    have hfound := putspLoop_found (BitVec.isLt _) hstatus
    refine ⟨(putspLoop 65536 (s.reg 0#3) s.enterTrap).2, ?_, (putspLoop_sameCore _ _ s.enterTrap).fault⟩
    rw [exec_putsp h0, stringEnd_eq, if_pos hfound]

end Sys2Proof
end

section
/-! What an instruction may change (10_state.md R23, R28, R31; 43_trap.md R160): one frame for every instruction, whose fields
say under which condition on the instruction a field of the state may change. One rule per state operation, then one lemma
over the four shapes; the lemmas behind O24, O32, O33, O39, O48 and O50 to O53. -/

namespace Sys2Proof
open Machine

/-! ### The permissions -/

/-- The words of memory an instruction may change: the word it stores to, and the keyboard words if it may read the status. -/
def touchedWords (s : State) : Instr → List Word
  | .trap v => if v = 0x22#8 ∨ v = 0x24#8 then [s.cfg.kbsrAddr, s.cfg.kbdrAddr] else []
  | i => (storeAddr s i).toList ++ sampledWords s (readAddrs s i)

/-- Whether an instruction may take answers of the input source. -/
def mayTakeInput (s : State) : Instr → Prop
  | .trap v => v = 0x20#8 ∨ v = 0x22#8 ∨ v = 0x23#8 ∨ v = 0x24#8
  | i => s.cfg.kbsrAddr ∈ readAddrs s i

/-- Whether an instruction may emit to the console (43_trap.md R160). -/
def mayEmit (cfg : Config) (i : Instr) : Prop :=
  ∃ v, i = .trap v ∧ (v = 0x21#8 ∨ v = 0x22#8 ∨ (v = 0x23#8 ∧ cfg.inMode = .echo) ∨ v = 0x24#8 ∨ v = 0x25#8)

/-- Whether an instruction takes the unsupported path (60_exceptions.md R176). -/
def mayReport : Instr → Prop
  | .rti | .res => True
  | .trap v => v.toNat < 0x20 ∨ 0x25 < v.toNat
  | _ => False

theorem sampledWords_nil (s : State) : sampledWords s [] = [] := by simp [sampledWords]

theorem touchedWords_of_string {v : Byte} (hv : v = 0x22#8 ∨ v = 0x24#8) (s : State) :
    touchedWords s (.trap v) = [s.cfg.kbsrAddr, s.cfg.kbdrAddr] :=
  if_pos hv

theorem destReg_permissions {i : Instr} {dr : RegIdx} (hi : destReg i = some dr) (s : State) :
    writtenRegs s.cfg i = [dr] ∧ writesCond s.cfg i = true ∧ touchedWords s i = sampledWords s (readAddrs s i) := by
  cases i with
  | addReg | addImm | andReg | andImm | notReg | ld | ldr | ldi | lea => cases hi; exact ⟨rfl, rfl, rfl⟩
  | br | st | str | sti | jsr | jsrr | jmp | rti | res | trap => cases hi

theorem storeAddr_permissions {i : Instr} {ea : Word} {s : State} (hi : storeAddr s i = some ea) :
    writtenRegs s.cfg i = [] ∧ writesCond s.cfg i = false ∧ touchedWords s i = ea :: sampledWords s (readAddrs s i) := by
  cases i with
  | st | str | sti => cases hi; exact ⟨rfl, rfl, rfl⟩
  | addReg | addImm | andReg | andImm | notReg | ld | ldr | ldi | lea | br | jsr | jsrr | jmp | rti | res | trap =>
    cases hi

theorem isControl_permissions {i : Instr} (hi : isControl i = true) (s : State) :
    writesCond s.cfg i = false ∧ storeAddr s i = none ∧ readAddrs s i = [] ∧ touchedWords s i = [] := by
  cases i with
  | br | jsr | jsrr | jmp | rti | res => exact ⟨rfl, rfl, rfl, sampledWords_nil s⟩
  | addReg | addImm | andReg | andImm | notReg | ld | ldr | ldi | lea | st | str | sti | trap => cases hi

theorem mayTakeInput_of_not_trap {i : Instr} (hi : ∀ v, i ≠ .trap v) (s : State) :
    mayTakeInput s i ↔ s.cfg.kbsrAddr ∈ readAddrs s i := by
  cases i with
  | trap v => exact absurd rfl (hi v)
  | _ => exact Iff.rfl

/-! ### The frame, and its rule for each state operation -/

structure ExecFrame (i : Instr) (s t : State) : Prop where
  regs : SameRegsOutside s t (writtenRegs s.cfg i)
  bytes : SameBytesOutside s t (touchedWords s i)
  cfg : t.cfg = s.cfg
  shutdown : t.shutdown = s.shutdown
  gate : t.gate = s.gate
  running : i ≠ .trap 0x25#8 → t.running = s.running
  pc : isControl i = false → t.pc = s.pc
  cond : writesCond s.cfg i = false → t.cond = s.cond
  written : storeAddr s i = none → t.written = s.written
  keys : ¬ mayTakeInput s i → t.keys = s.keys
  console : ∃ bs, t.console = s.console ++ bs ∧ (bs ≠ [] → mayEmit s.cfg i)
  diags : ¬ mayReport i → t.diags = s.diags

theorem ExecFrame.refl (i : Instr) (s : State) : ExecFrame i s s where
  regs := fun _ _ => ⟨rfl, rfl⟩
  bytes := fun _ _ => rfl
  cfg := rfl
  shutdown := rfl
  gate := rfl
  running := fun _ => rfl
  pc := fun _ => rfl
  cond := fun _ => rfl
  written := fun _ => rfl
  keys := fun _ => rfl
  console := ⟨[], (List.append_nil _).symm, fun h => absurd rfl h⟩
  diags := fun _ => rfl

section
variable {i : Instr} {s u : State}

theorem ExecFrame.setReg (h : ExecFrame i s u) {r : RegIdx} (hr : r ∈ writtenRegs s.cfg i) (v : Word) :
    ExecFrame i s (u.setReg r v) :=
  { h with
    regs := fun q hq => by
      have hne : q ≠ r := fun e => hq (e ▸ hr)
      rw [u.reg_setReg_ne r q v hne, u.regHasValue_setReg_ne r q v hne]
      exact h.regs q hq }

theorem ExecFrame.define (h : ExecFrame i s u) {r : RegIdx} (hr : r ∈ writtenRegs s.cfg i)
    (hcond : writesCond s.cfg i = true) (v : Word) : ExecFrame i s (u.define r v) :=
  { h.setReg hr v with cond := fun hnot => absurd (hcond.symm.trans hnot) Bool.noConfusion }

theorem ExecFrame.setPc (h : ExecFrame i s u) (hi : isControl i = true) (v : Word) : ExecFrame i s (u.setPc v) :=
  { h with pc := fun hnot => absurd (hi.symm.trans hnot) Bool.noConfusion }

theorem ExecFrame.raise (h : ExecFrame i s u) (k : FaultRecord) : ExecFrame i s (u.raise k) := { h with }

theorem ExecFrame.unsupported (h : ExecFrame i s u) (hi : mayReport i) (k : FaultRecord) :
    ExecFrame i s (u.unsupported k) := by
  have hdiag : ExecFrame i s (u.diag k) := { h with diags := fun hnot => absurd hi hnot }
  unfold State.unsupported
  cases u.cfg.unsupportedPolicy with
  | fault => exact hdiag.raise k
  | goOn => exact hdiag

theorem ExecFrame.memWrite (h : ExecFrame i s u) {ea : Word} (hi : storeAddr s i = some ea) (v : Word) :
    ExecFrame i s (u.memWrite ea v) :=
  { h with
    bytes := fun k hk => by
      have hea : ∀ l : Lane, k ≠ l.key ea := hk ea (by simp [(storeAddr_permissions hi).2.2])
      rw [u.memWrite_mem, Memory.readByte_writeWord_ne _ _ _ _ ⟨hea .low, hea .high⟩]
      exact h.bytes k hk
    written := fun hnone => absurd (hi.symm.trans hnone) (Option.some_ne_none ea) }

theorem ExecFrame.afterReads (h : ExecFrame i s u) {as : List Word} (hwords : sampledWords s as ⊆ touchedWords s i)
    (hinput : s.cfg.kbsrAddr ∈ as → mayTakeInput s i) : ExecFrame i s (afterReads u as) := by
  have hcore := afterReads_sameCore u as
  have hsampled : sampledWords u as = sampledWords s as := by unfold sampledWords; rw [h.cfg]
  constructor
  · exact fun q hq => ⟨(State.reg_congr hcore.regs q).trans (h.regs q hq).1,
      (State.regHasValue_congr hcore.hasValue q).trans (h.regs q hq).2⟩
  · intro k hk
    have hread := afterReads_sameBytes u as k (hsampled ▸ fun a ha => hk a (hwords ha))
    exact hread.trans (h.bytes k hk)
  · exact hcore.cfg.trans h.cfg
  · exact hcore.shutdown.trans h.shutdown
  · exact hcore.gate.trans h.gate
  · exact fun hi => hcore.running.trans (h.running hi)
  · exact fun hi => hcore.pc.trans (h.pc hi)
  · exact fun hi => hcore.cond.trans (h.cond hi)
  · exact fun hi => hcore.written.trans (h.written hi)
  · intro hnot
    rw [afterReads_of_not_mem (h.cfg ▸ mt hinput hnot)]
    exact h.keys hnot
  · rw [afterReads_console]; exact h.console
  · exact fun hi => hcore.diags.trans (h.diags hi)

theorem ExecFrame.withKeys (h : ExecFrame i s u) (hi : mayTakeInput s i) (ks : List (Option Byte)) :
    ExecFrame i s { u with keys := ks } :=
  { h with keys := fun hnot => absurd hi hnot }

theorem ExecFrame.emitAll (h : ExecFrame i s u) (hi : mayEmit s.cfg i) (bs : List Byte) :
    ExecFrame i s (bs.foldl State.emit u) := by
  obtain ⟨cs, hcs, -⟩ := h.console
  rw [foldl_emit]
  exact { h with console := ⟨cs ++ bs, by simp [hcs], fun _ => hi⟩ }

theorem ExecFrame.halt (h : ExecFrame i s u) (hi : i = .trap 0x25#8) : ExecFrame i s { u with running := false } :=
  { h with running := fun hnot => absurd hi hnot }

/-! ### Every instruction -/

theorem ExecFrame.operandUnvalued {t : State} (h : ExecFrame i s u) (ht : OperandUnvalued i u t) : ExecFrame i s t := by
  obtain ⟨r, -, -, rfl⟩ := ht
  exact h.raise _

theorem ExecFrame.controlEnds {t : State} (h : ExecFrame i s u) (hi : isControl i = true) (ht : ControlEnds i u t) :
    ExecFrame i s t := by
  rcases ht with ⟨v, rfl⟩ | hbase | ⟨hop, op, rfl⟩
  · exact h.setPc hi v
  · exact h.operandUnvalued hbase
  · refine h.unsupported ?_ _
    rcases hop with rfl | rfl <;> exact trivial

/-- A string routine: reads, bytes, and perhaps the fault. -/
theorem ExecFrame.stringEnd {v : Byte} (hv : v = 0x22#8 ∨ v = 0x24#8) {u w : State} (h : ExecFrame (.trap v) s u)
    (hloop : ∃ (as : List Word) (bs : List Byte), w = bs.foldl State.emit (Sys2Proof.afterReads u as)) (found : Bool)
    (k : FaultRecord) : ExecFrame (.trap v) s (if found then w else w.raise k) := by
  obtain ⟨as, bs, rfl⟩ := hloop
  have hwords : sampledWords s as ⊆ touchedWords s (.trap v) := by
    rw [touchedWords_of_string hv]
    unfold sampledWords
    split
    · exact List.Subset.refl _
    · exact List.nil_subset _
  have hinput : mayTakeInput s (.trap v) := hv.elim (.inr ∘ .inl) (.inr ∘ .inr ∘ .inr)
  have hemit : mayEmit s.cfg (.trap v) := ⟨v, rfl, hv.elim (.inr ∘ .inl) (.inr ∘ .inr ∘ .inr ∘ .inl)⟩
  have hw := (h.afterReads hwords fun _ => hinput).emitAll hemit bs
  cases found with
  | true => exact hw
  | false => exact hw.raise k

end

theorem trapRoutine_frame {v : Byte} {s u t : State} (h : ExecFrame (.trap v) s u) (ht : trapRoutine v u = .next t) :
    ExecFrame (.trap v) s t := by
  have hunvalued : Unvalued 0#3 u t → ExecFrame (.trap v) s t := fun hr0 => hr0.2 ▸ h.raise _
  rcases trapRoutine_cases v with ⟨rfl, hv⟩ | ⟨rfl, hv⟩ | ⟨rfl, hv⟩ | ⟨rfl, hv⟩ | ⟨rfl, hv⟩ | ⟨rfl, hv⟩ | ⟨hout, hv⟩ <;>
    rw [hv] at ht
  · obtain ⟨c, ks, -, rfl⟩ := trapGetc_next ht
    exact (h.withKeys (.inl rfl) ks).define (by simp [writtenRegs]) rfl _
  · rcases trapOut_next ht with rfl | hr0
    · exact h.emitAll ⟨_, rfl, .inl rfl⟩ [_]
    · exact hunvalued hr0
  · rcases trapPuts_next ht with ⟨found, w, -, hloop, rfl⟩ | hr0
    · exact .stringEnd (.inl rfl) h (hloop ▸ putsLoop_reads_then_emits 65536 (u.reg 0#3) u :) found _
    · exact hunvalued hr0
  · rcases trapIn_next ht with ⟨hecho, c, ks, -, rfl⟩ | ⟨-, rfl⟩
    · rw [h.cfg] at hecho
      have hread := h.withKeys (.inr (.inr (.inl rfl))) ks
      have hemitted := hread.emitAll ⟨_, rfl, .inr (.inr (.inl ⟨rfl, hecho⟩))⟩ [c]
      exact hemitted.define (by simp [writtenRegs, hecho]) (by simp [writesCond, hecho]) _
    · exact h
  · rcases trapPutsp_next ht with ⟨found, w, -, hloop, rfl⟩ | hr0
    · exact .stringEnd (.inr rfl) h (hloop ▸ putspLoop_reads_then_emits 65536 (u.reg 0#3) u :) found _
    · exact hunvalued hr0
  · cases trapHalt_next ht
    have hmessage := h.emitAll ⟨_, rfl, .inr (.inr (.inr (.inr rfl)))⟩ u.cfg.haltMessage
    rw [foldl_emit] at hmessage
    exact hmessage.halt rfl
  · cases trapUnknown_next ht
    exact h.unsupported hout _

/-- The reads of a load or a store, before its end. -/
theorem readAddrs_frame {i : Instr} {s : State} (hi : ∀ v, i ≠ .trap v)
    (hwords : sampledWords s (readAddrs s i) ⊆ touchedWords s i) : ExecFrame i s (afterReads s (readAddrs s i)) :=
  (ExecFrame.refl i s).afterReads hwords (mayTakeInput_of_not_trap hi s).mpr

theorem exec_frame {i : Instr} {s t : State} (ht : exec i s = .next t) : ExecFrame i s t := by
  have hrefl := ExecFrame.refl i s
  rcases instr_shape i s with ⟨dr, hi⟩ | ⟨ea, hi⟩ | hi | ⟨v, rfl⟩
  · obtain ⟨hregs, hcond, hwords⟩ := destReg_permissions hi s
    have hreads := readAddrs_frame (i := i) (by rintro v rfl; cases hi) (fun _ ha => hwords.symm ▸ ha)
    rcases exec_next_of_destReg hi ht with ⟨v, rfl⟩ | hunvalued
    · exact hreads.define (hregs ▸ List.mem_singleton_self dr) hcond v
    · exact hrefl.operandUnvalued hunvalued
  · obtain ⟨-, -, hwords⟩ := storeAddr_permissions hi
    have hreads := readAddrs_frame (i := i) (by rintro v rfl; cases hi) (hwords ▸ List.subset_cons_self ea _)
    rcases exec_next_of_storeAddr hi ht with ⟨v, rfl⟩ | hunvalued
    · exact hreads.memWrite hi v
    · exact hreads.operandUnvalued hunvalued
  · rcases exec_next_of_isControl hi ht with hends | ⟨hregs, hends⟩
    · exact hrefl.controlEnds hi hends
    · exact (hrefl.setReg (hregs ▸ List.mem_singleton_self linkReg) s.pc).controlEnds hi hends
  · have hlink : linkReg ∈ writtenRegs s.cfg (.trap v) := by
      dsimp only [writtenRegs]
      split <;> exact List.mem_cons_self
    exact trapRoutine_frame (hrefl.setReg hlink s.pc) ht

/-! ### The fault state -/

/-- An operand found without a value in `u`, where `u` only gave registers values, held none in `s`. -/
theorem sameFaultOrUnwritten_of_operandUnvalued {i : Instr} {s u t : State} (ht : OperandUnvalued i u t)
    (hpc : u.pc = s.pc) (hvalue : ∀ r, s.regHasValue r = true → u.regHasValue r = true) : SameFaultOrUnwritten i s t := by
  obtain ⟨r, hr, hnone, rfl⟩ := ht
  have hnone' : s.regHasValue r = false := Bool.eq_false_iff.mpr fun h => Bool.eq_false_iff.mp hnone (hvalue r h)
  refine .inr ⟨r, hr, hnone', ?_⟩
  rw [State.raise_fault, State.fetchAddr, hpc]
  rfl

theorem destReg_fault {i : Instr} {dr : RegIdx} {s t : State} (hi : destReg i = some dr) (ht : exec i s = .next t) :
    SameFaultOrUnwritten i s t := by
  rcases exec_next_of_destReg hi ht with ⟨v, rfl⟩ | hunvalued
  · exact .inl (afterReads_sameCore s _).fault
  · exact sameFaultOrUnwritten_of_operandUnvalued hunvalued rfl fun _ h => h

theorem storeAddr_fault {i : Instr} {ea : Word} {s t : State} (hi : storeAddr s i = some ea) (ht : exec i s = .next t) :
    SameFaultOrUnwritten i s t := by
  have hcore := afterReads_sameCore s (readAddrs s i)
  rcases exec_next_of_storeAddr hi ht with ⟨v, rfl⟩ | hunvalued
  · exact .inl hcore.fault
  · exact sameFaultOrUnwritten_of_operandUnvalued hunvalued hcore.pc fun r h =>
      (State.regHasValue_congr hcore.hasValue r).trans h

theorem controlEnds_fault {i : Instr} {s u t : State} (ht : ControlEnds i u t) (hrti : i ≠ .rti) (hres : i ≠ .res)
    (hfault : u.fault = s.fault) (hpc : u.pc = s.pc) (hvalue : ∀ r, s.regHasValue r = true → u.regHasValue r = true) :
    SameFaultOrUnwritten i s t := by
  rcases ht with ⟨v, rfl⟩ | hbase | ⟨hop, -⟩
  · exact .inl hfault
  · exact sameFaultOrUnwritten_of_operandUnvalued hbase hpc hvalue
  · exact absurd hop (not_or.mpr ⟨hrti, hres⟩)

theorem isControl_fault {i : Instr} {s t : State} (hi : isControl i = true) (ht : exec i s = .next t) (hrti : i ≠ .rti)
    (hres : i ≠ .res) : SameFaultOrUnwritten i s t := by
  rcases exec_next_of_isControl hi ht with hends | ⟨-, hends⟩
  · exact controlEnds_fault hends hrti hres rfl rfl fun _ h => h
  · exact controlEnds_fault hends hrti hres rfl rfl fun _ h => regHasValue_setReg_of_regHasValue h _ _

/-- The faults TRAP can set (60_exceptions.md R175): `s` is the state before the link is written. -/
def TrapFault (v : Byte) (s t : State) : Prop :=
  t.fault = s.fault ∨
    (t.fault = some (.unwrittenRegister 0#3 s.fetchAddr) ∧ s.regHasValue 0#3 = false ∧
      (v = 0x21#8 ∨ v = 0x22#8 ∨ v = 0x24#8)) ∨
    (t.fault = some (.unterminatedString (s.reg 0#3)) ∧ (v = 0x22#8 ∨ v = 0x24#8)) ∨
    (t.fault = some (.unknownTrapVector v s.fetchAddr) ∧ s.cfg.unsupportedPolicy = .fault ∧
      (v.toNat < 0x20 ∨ 0x25 < v.toNat))

theorem trapFault_of_unvalued {v : Byte} {s t : State} (hv : v = 0x21#8 ∨ v = 0x22#8 ∨ v = 0x24#8)
    (ht : Unvalued 0#3 s.enterTrap t) : TrapFault v s t := by
  obtain ⟨hnone, rfl⟩ := ht
  have hr0 : s.enterTrap.regHasValue 0#3 = s.regHasValue 0#3 := s.regHasValue_setReg_ne _ _ _ (by decide)
  exact .inr (.inl ⟨rfl, hr0.symm.trans hnone, hv⟩)

theorem trapFault_of_string {v : Byte} {s u : State} (hv : v = 0x22#8 ∨ v = 0x24#8) (hcore : SameCore s.enterTrap u)
    (found : Bool) : TrapFault v s (if found then u else u.raise (.unterminatedString (s.enterTrap.reg 0#3))) := by
  have hr0 : s.enterTrap.reg 0#3 = s.reg 0#3 := s.reg_setReg_ne _ _ _ (by decide)
  cases found with
  | true => exact .inl hcore.fault
  | false => exact .inr (.inr (.inl ⟨congrArg (some ∘ FaultRecord.unterminatedString) hr0, hv⟩))

theorem trap_fault {v : Byte} {s t : State} (ht : exec (.trap v) s = .next t) : TrapFault v s t := by
  have ht : trapRoutine v s.enterTrap = .next t := ht
  rcases trapRoutine_cases v with ⟨rfl, hv⟩ | ⟨rfl, hv⟩ | ⟨rfl, hv⟩ | ⟨rfl, hv⟩ | ⟨rfl, hv⟩ | ⟨rfl, hv⟩ | ⟨hout, hv⟩ <;>
    rw [hv] at ht
  · obtain ⟨c, ks, -, rfl⟩ := trapGetc_next ht
    exact .inl rfl
  · rcases trapOut_next ht with rfl | hr0
    · exact .inl rfl
    · exact trapFault_of_unvalued (.inl rfl) hr0
  · rcases trapPuts_next ht with ⟨found, u, hcore, -, rfl⟩ | hr0
    · exact trapFault_of_string (.inl rfl) hcore found
    · exact trapFault_of_unvalued (.inr (.inl rfl)) hr0
  · rcases trapIn_next ht with ⟨-, c, ks, -, rfl⟩ | ⟨-, rfl⟩
    · exact .inl rfl
    · exact .inl rfl
  · rcases trapPutsp_next ht with ⟨found, u, hcore, -, rfl⟩ | hr0
    · exact trapFault_of_string (.inr rfl) hcore found
    · exact trapFault_of_unvalued (.inr (.inr rfl)) hr0
  · cases trapHalt_next ht
    exact .inl rfl
  · cases trapUnknown_next ht
    cases hpolicy : s.cfg.unsupportedPolicy with
    | fault =>
      refine .inr (.inr (.inr ⟨?_, hpolicy, hout⟩))
      rw [State.unsupported_fault, State.enterTrap, State.setReg_cfg, hpolicy]
      rfl
    | goOn =>
      refine .inl ?_
      rw [State.unsupported_fault, State.enterTrap, State.setReg_cfg, hpolicy]
      rfl

/-! ### The frames of the instruction classes -/

theorem ExecFrame.sameControl {i : Instr} {s t : State} (h : ExecFrame i s t) (hi : i ≠ .trap 0x25#8) : SameControl s t :=
  ⟨h.cfg, h.running hi, h.shutdown, h.gate⟩

theorem ExecFrame.console_eq {i : Instr} {s t : State} (h : ExecFrame i s t) (hi : ¬ mayEmit s.cfg i) :
    t.console = s.console := by
  obtain ⟨bs, hbs, hemit⟩ := h.console
  rw [hbs, not_not.mp (mt hemit hi), List.append_nil]

theorem not_mayEmit_of_not_trap {i : Instr} (hi : ∀ v, i ≠ .trap v) (cfg : Config) : ¬ mayEmit cfg i :=
  fun ⟨v, e, _⟩ => hi v e

/-- The frame of an instruction that ends in `R[dr] <- v; setcc(v)`, whatever it reads: operate instructions read nothing. -/
theorem destReg_frame {i : Instr} {dr : RegIdx} {s t : State} (hi : destReg i = some dr) (ht : exec i s = .next t) :
    SameRegsOutside s t [dr] ∧ SameBytesOutside s t (sampledWords s (readAddrs s i)) ∧ SameControl s t ∧ t.pc = s.pc ∧
      t.written = s.written ∧ (s.cfg.kbsrAddr ∉ readAddrs s i → t.keys = s.keys) ∧ t.console = s.console ∧
      t.diags = s.diags ∧ SameFaultOrUnwritten i s t := by
  obtain ⟨hregs, -, hwords⟩ := destReg_permissions hi s
  have hf := exec_frame ht
  have hkind : (∀ v, i ≠ .trap v) ∧ isControl i = false ∧ storeAddr s i = none ∧ ¬ mayReport i := by
    cases i with
    | addReg | addImm | andReg | andImm | notReg | ld | ldr | ldi | lea => exact ⟨by simp, rfl, rfl, id⟩
    | br | st | str | sti | jsr | jsrr | jmp | rti | res | trap => cases hi
  obtain ⟨hnot, hcontrol, hstore, hreport⟩ := hkind
  exact ⟨hregs ▸ hf.regs, hwords ▸ hf.bytes, hf.sameControl (hnot _), hf.pc hcontrol, hf.written hstore,
    fun h => hf.keys (mt (mayTakeInput_of_not_trap hnot s).mp h), hf.console_eq (not_mayEmit_of_not_trap hnot _),
    hf.diags hreport, destReg_fault hi ht⟩

/-- Settles O24: an operate instruction and LEA define a register and read no memory. -/
theorem operateFrame : Obligations.OperateFrame := by
  unfold Obligations.OperateFrame
  intro dr sr1 sr2 imm s t i hi ht
  have hshape : destReg i = some dr ∧ readAddrs s i = [] := by
    simp only [List.mem_cons, List.not_mem_nil, or_false] at hi
    rcases hi with rfl | rfl | rfl | rfl | rfl | rfl <;> exact ⟨rfl, rfl⟩
  obtain ⟨hdest, hreads⟩ := hshape
  have hf := destReg_frame hdest ht
  rw [hreads, sampledWords_nil] at hf
  obtain ⟨hregs, hbytes, hcontrol, hpc, hwritten, hkeys, hrest⟩ := hf
  exact ⟨hregs, hbytes, hcontrol, hpc, hwritten, hkeys List.not_mem_nil, hrest⟩

/-- Settles O32: a load defines a register after its reads. -/
theorem loadFrame : Obligations.LoadFrame := by
  unfold Obligations.LoadFrame
  intro dr baseR off s t i reads hi ht
  have hshape : destReg i = some dr ∧ readAddrs s i = reads := by
    simp only [List.mem_cons, List.not_mem_nil, or_false, Prod.mk.injEq] at hi
    rcases hi with ⟨rfl, rfl⟩ | ⟨rfl, rfl⟩ | ⟨rfl, rfl⟩ <;> exact ⟨rfl, rfl⟩
  obtain ⟨hdest, rfl⟩ := hshape
  exact destReg_frame hdest ht

/-- A store records the address it stored to, or, stopped by a register without a value, nothing. -/
theorem storeAddr_written {i : Instr} {ea : Word} {s t : State} (hi : storeAddr s i = some ea) (ht : exec i s = .next t) :
    t.written = s.written ∨ t.written = (s.noteWritten ea).written := by
  have hcore := afterReads_sameCore s (readAddrs s i)
  rcases exec_next_of_storeAddr hi ht with ⟨v, rfl⟩ | ⟨r, -, -, rfl⟩
  · exact .inr (by rw [State.memWrite_written, State.noteWritten_written, hcore.cfg, hcore.written])
  · exact .inl hcore.written

/-- Settles O33: a store changes its word after its reads. -/
theorem storeFrame : Obligations.StoreFrame := by
  unfold Obligations.StoreFrame
  intro sr baseR off s t i ea reads hi ht
  have hshape : storeAddr s i = some ea ∧ readAddrs s i = reads ∧ (∀ v, i ≠ .trap v) ∧ isControl i = false ∧
      ¬ mayReport i := by
    simp only [List.mem_cons, List.not_mem_nil, or_false, Prod.mk.injEq] at hi
    rcases hi with ⟨rfl, rfl, rfl⟩ | ⟨rfl, rfl, rfl⟩ | ⟨rfl, rfl, rfl⟩ <;> exact ⟨rfl, rfl, by simp, rfl, id⟩
  obtain ⟨hstore, rfl, hnot, hcontrol, hreport⟩ := hshape
  obtain ⟨hregs, hcond, hwords⟩ := storeAddr_permissions hstore
  have hf := exec_frame ht
  exact ⟨hregs ▸ hf.regs, hwords ▸ hf.bytes, hf.sameControl (hnot _), hf.pc hcontrol, hf.cond hcond,
    storeAddr_written hstore ht, fun h => hf.keys (mt (mayTakeInput_of_not_trap hnot s).mp h),
    hf.console_eq (not_mayEmit_of_not_trap hnot _), hf.diags hreport, storeAddr_fault hstore ht⟩

/-- Settles O39: a control instruction reads and writes no memory. -/
theorem controlFrame : Obligations.ControlFrame := by
  unfold Obligations.ControlFrame
  intro nzp baseR off s t i rs hi ht
  have hshape : isControl i = true ∧ writtenRegs s.cfg i = rs ∧ (∀ v, i ≠ .trap v) ∧
      (i ≠ .rti → i ≠ .res → ¬ mayReport i) := by
    simp only [List.mem_cons, List.not_mem_nil, or_false, Prod.mk.injEq] at hi
    rcases hi with ⟨rfl, rfl⟩ | ⟨rfl, rfl⟩ | ⟨rfl, rfl⟩ | ⟨rfl, rfl⟩ | ⟨rfl, rfl⟩ | ⟨rfl, rfl⟩ <;>
      exact ⟨rfl, rfl, by simp, by simp [mayReport]⟩
  obtain ⟨hcontrol, rfl, hnot, hreport⟩ := hshape
  obtain ⟨hcond, hstore, hreads, hwords⟩ := isControl_permissions hcontrol s
  have hf := exec_frame ht
  have hinput : ¬ mayTakeInput s i := by
    rw [mayTakeInput_of_not_trap hnot, hreads]
    exact List.not_mem_nil
  exact ⟨hf.regs, hwords ▸ hf.bytes, hf.sameControl (hnot _), hf.cond hcond, hf.written hstore, hf.keys hinput,
    hf.console_eq (not_mayEmit_of_not_trap hnot _),
    fun hrti hres => ⟨hf.diags (hreport hrti hres), isControl_fault hcontrol ht hrti hres⟩⟩

/-- Settles O48: TRAP's permissions, and the faults its routines can set. -/
theorem trapFrame : Obligations.TrapFrame := by
  unfold Obligations.TrapFrame
  refine ⟨decode_trap_of_mask, fun v s t ht => ?_⟩
  have hf := exec_frame ht
  have hdiags : v.toNat < 0x20 ∨ 0x25 < v.toNat ∨ t.diags = s.diags :=
    or_assoc.mp (or_iff_not_imp_left.mpr hf.diags)
  have hkeys : v = 0x20#8 ∨ v = 0x22#8 ∨ v = 0x23#8 ∨ v = 0x24#8 ∨ t.keys = s.keys := by
    have h : mayTakeInput s (.trap v) ∨ t.keys = s.keys := or_iff_not_imp_left.mpr hf.keys
    simpa [mayTakeInput, or_assoc] using h
  exact ⟨hf.regs, hf.bytes, hf.cfg, hf.shutdown, hf.gate, hf.pc rfl, hf.written rfl, hf.cond,
    fun hv => hf.running (mt Instr.trap.inj hv), hdiags, hkeys, trap_fault ht⟩

/-! ### Whole-machine rules -/

/-- Settles O50: the registers of the frame. -/
theorem onlyListedRegistersAreWritten : Obligations.OnlyListedRegistersAreWritten := by
  unfold Obligations.OnlyListedRegistersAreWritten
  exact fun _ _ _ ht => (exec_frame ht).regs

/-- Settles O51: the condition flags of the frame. -/
theorem onlyListedInstructionsWriteCond : Obligations.OnlyListedInstructionsWriteCond := by
  unfold Obligations.OnlyListedInstructionsWriteCond
  exact fun _ _ _ ht => (exec_frame ht).cond

theorem running_of_halt {s t : State} (ht : exec (.trap 0x25#8) s = .next t) : t.running = false := by
  cases trapHalt_next (s := s.enterTrap) ht
  rfl

/-- Settles O52: the running flag of the frame, and HALT's own effect. -/
theorem onlyHaltClearsRunning : Obligations.OnlyHaltClearsRunning := by
  unfold Obligations.OnlyHaltClearsRunning
  intro i s t ht
  have hhalt : i = .trap 0x25#8 → t.running = false := fun hi => running_of_halt (hi ▸ ht)
  refine ⟨?_, hhalt⟩
  by_cases hi : i = .trap 0x25#8
  case pos => exact .inr ⟨hi, hhalt hi⟩
  case neg => exact .inl ((exec_frame ht).running hi)

/-- Settles O53: emitting is one appended byte by definition, and the console is that of the frame. -/
theorem onlyOutputRoutinesEmit : Obligations.OnlyOutputRoutinesEmit := by
  unfold Obligations.OnlyOutputRoutinesEmit
  exact ⟨fun _ _ => rfl, fun _ _ _ ht => (exec_frame ht).console⟩

end Sys2Proof
end

section
/-! The decoder against the opcode table (30_encoding.md R75 to R78), and the don't-care bits (R76 [D5]): every row's mask
keeps bits of the opcode and the two mode bits only, so one word for each setting of these stands for all words; the lemmas
behind O6, O8 and O9. -/

namespace Sys2Proof
open Machine

/-! ### The bits a row looks at -/

/-- The opcode with the mode bits of JSR (bit 11) and of ADD and AND (bit 5), and zeros elsewhere. -/
def keyWord (op : BitVec 4) (jsrMode immMode : Bool) : Word :=
  (op ++ BitVec.ofBool jsrMode ++ 0#5 ++ BitVec.ofBool immMode ++ 0#5 : BitVec (4 + 1 + 5 + 1 + 5))

/-- The word with the same opcode and mode bits as `w`. -/
def keyOf (w : Word) : Word := keyWord (w.extractLsb' 12 4) (w.getLsbD 11) (w.getLsbD 5)

theorem and_keyMask (w : Word) : w &&& 0xF820#16 = keyOf w := by
  apply BitVec.eq_of_getLsbD_eq
  intro k hk
  simp only [keyOf, keyWord, BitVec.getLsbD_append, BitVec.getLsbD_and, BitVec.getLsbD_ofBool]
  interval_cases k <;> simp (decide := true)

theorem covers_keyOf {r : OpcodeRow} (hr : 0xF820#16 &&& r.mask = r.mask) (w : Word) :
    r.covers (keyOf w) = r.covers w := by
  unfold OpcodeRow.covers
  rw [← and_keyMask, BitVec.and_assoc, hr]

theorem opcodeTable_masks : ∀ r ∈ opcodeTable, 0xF820#16 &&& r.mask = r.mask := by decide

theorem filter_covers_keyOf (w : Word) : opcodeTable.filter (·.covers (keyOf w)) = opcodeTable.filter (·.covers w) :=
  List.filter_congr fun r hr => covers_keyOf (opcodeTable_masks r hr) w

/-- The row of the decoded instruction depends on the opcode and the mode bits alone. -/
theorem select_row_congr {f g : Fields} (hop : f.op = g.op) (himm : f.immMode = g.immMode)
    (hjsr : f.jsrMode = g.jsrMode) : (select f).row = (select g).row := by
  unfold select
  rw [hop, himm, hjsr]
  split <;> (try split) <;> rfl

theorem decode_keyOf_row (w : Word) : (decode (keyOf w)).row = (decode w).row := by
  rw [← and_keyMask]
  apply select_row_congr
  · exact (op_of_mask w _ 0xF820#16 rfl (by decide)).symm
  · simp [fields]
  · simp [fields]

/-- The table at each setting of the opcode and the mode bits. -/
theorem filter_covers_keyWord : ∀ (op : BitVec 4) (jsrMode immMode : Bool),
    opcodeTable.filter (·.covers (keyWord op jsrMode immMode)) = [(decode (keyWord op jsrMode immMode)).row] := by
  decide

/-! ### Immediates -/

theorem fitsSigned_sext_bits (w : Word) (n : Nat) (h1 : 1 ≤ n) (h16 : n ≤ 16) :
    fitsSigned n (sext n (bits w 0 n)) = true := by
  rw [sext_bits w n h1 h16]
  exact fitsSigned_signExtend n _ h1 h16

theorem decode_wf (w : Word) : (decode w).wf = true := by
  unfold decode select
  have h5 := fitsSigned_sext_bits w 5 (by decide) (by decide)
  have h6 := fitsSigned_sext_bits w 6 (by decide) (by decide)
  have h9 := fitsSigned_sext_bits w 9 (by decide) (by decide)
  have h11 := fitsSigned_sext_bits w 11 (by decide) (by decide)
  split <;> (try split) <;> simp [Instr.wf, fields, h5, h6, h9, h11]

/-- Settles O8: both sides depend on the opcode and the mode bits only, of which there are 64 settings. -/
theorem decodeFollowsTheOpcodeTable : Obligations.DecodeFollowsTheOpcodeTable := by
  unfold Obligations.DecodeFollowsTheOpcodeTable
  intro w
  refine ⟨?_, decode_wf w⟩
  rw [← filter_covers_keyOf, ← decode_keyOf_row]
  exact filter_covers_keyWord _ _ _

/-! ### Don't-care bits -/

/-- `w` and `x` agree outside the bits of `d`. -/
def AgreeOutside (d w x : Word) : Prop := (w ^^^ x) &&& ~~~d = 0

theorem AgreeOutside.getLsbD {d w x : Word} (h : AgreeOutside d w x) {k : Nat} (hk : k < 16)
    (hd : d.getLsbD k = false) : x.getLsbD k = w.getLsbD k := by
  have hbit := congrArg (·.getLsbD k) h
  simp only [BitVec.getLsbD_and, BitVec.getLsbD_xor, BitVec.getLsbD_not, hk, hd] at hbit
  have hsame : w.getLsbD k = x.getLsbD k := by simpa using hbit
  exact hsame.symm

theorem AgreeOutside.and_mask {d w x : Word} (h : AgreeOutside d w x) {m : Word} (hm : m &&& d = 0) :
    x &&& m = w &&& m := by
  apply BitVec.eq_of_getLsbD_eq
  intro k hk
  rw [BitVec.getLsbD_and, BitVec.getLsbD_and]
  cases hmk : m.getLsbD k with
  | false => simp
  | true =>
    have hd := congrArg (·.getLsbD k) hm
    simp [hmk] at hd
    rw [h.getLsbD hk hd]

theorem AgreeOutside.extractLsb' {d w x : Word} (h : AgreeOutside d w x) {lo len : Nat}
    (hd : d.extractLsb' lo len = 0) : x.extractLsb' lo len = w.extractLsb' lo len := by
  apply BitVec.eq_of_getLsbD_eq
  intro k hk
  have hdk := congrArg (·.getLsbD k) hd
  simp only [BitVec.getLsbD_extractLsb', hk, decide_true, Bool.true_and] at hdk ⊢
  by_cases hin : lo + k < 16
  case pos => exact h.getLsbD hin (by simpa using hdk)
  case neg => rw [BitVec.getLsbD_of_ge _ _ (by omega), BitVec.getLsbD_of_ge _ _ (by omega)]

/-- A row whose mask keeps no bit of `d`: words that agree outside `d` are both of the row, and decode alike when the
fields of the row's instruction keep no bit of `d` either. -/
theorem decode_eq_of_agreeOutside {m p d w x : Word} {fieldsOf : Word → Instr}
    (hrow : ∀ w, w &&& m = p → decode w = fieldsOf w) (hw : w &&& m = p) (h : AgreeOutside d w x)
    (hfields : fieldsOf x = fieldsOf w) (hm : m &&& d = 0 := by decide) : decode x = decode w :=
  calc decode x = fieldsOf x := hrow x ((h.and_mask hm).trans hw)
    _ = fieldsOf w := hfields
    _ = decode w := (hrow w hw).symm

/-- Settles O9: the other word is of the same row, and agrees in every field the row's instruction has. -/
theorem dontCareBitsAreIgnored : Obligations.DontCareBitsAreIgnored := by
  unfold Obligations.DontCareBitsAreIgnored
  refine fun w x => ⟨fun hw h => ?addAnd, fun hw h => ?jsrr, fun hw h => ?notReg, fun hw h => ?jmp, fun hw h => ?trap,
    fun hw h => ?rtiRes⟩ <;> have h : AgreeOutside _ w x := h
  case addAnd =>
    have hdr := h.extractLsb' (lo := 9) (len := 3) (by decide)
    have hsr1 := h.extractLsb' (lo := 6) (len := 3) (by decide)
    have hsr2 := h.extractLsb' (lo := 0) (len := 3) (by decide)
    rcases hw with hw | hw
    · exact decode_eq_of_agreeOutside decode_addReg_of_mask hw h (by rw [hdr, hsr1, hsr2])
    · exact decode_eq_of_agreeOutside decode_andReg_of_mask hw h (by rw [hdr, hsr1, hsr2])
  case jsrr =>
    exact decode_eq_of_agreeOutside decode_jsrr_of_mask hw h (congrArg Instr.jsrr (h.extractLsb' (by decide)))
  case notReg =>
    exact decode_eq_of_agreeOutside decode_notReg_of_mask hw h
      (congrArg₂ Instr.notReg (h.extractLsb' (by decide)) (h.extractLsb' (by decide)))
  case jmp =>
    exact decode_eq_of_agreeOutside decode_jmp_of_mask hw h (congrArg Instr.jmp (h.extractLsb' (by decide)))
  case trap =>
    exact decode_eq_of_agreeOutside decode_trap_of_mask hw h (congrArg Instr.trap (h.extractLsb' (by decide)))
  case rtiRes =>
    rcases hw with hw | hw
    · exact decode_eq_of_agreeOutside decode_rti_of_mask hw h rfl
    · exact decode_eq_of_agreeOutside decode_res_of_mask hw h rfl

/-- Settles O6: eleven fixed words, by evaluating the decoder on each. -/
theorem sampleWordsDecode : Obligations.SampleWordsDecode := by
  unfold Obligations.SampleWordsDecode
  decide

end Sys2Proof
end

section
/-! Reset, loading and memory (10_state.md R38 to R42; 70_reset_and_hazards.md R200 to R204, R216; 20_memory.md R49 to R54):
which images launch and what they leave; what one read, one store and one patch change; the lemmas behind O1, O3, O4, O14 to
O16, O57 and O58. -/

namespace Sys2Proof
open Machine

/-! ### Reset -/

theorem resetWith_reg (cfg : Config) (origin : Word) (r : RegIdx) : (State.resetWith cfg origin).reg r = 0x0000#16 := by
  simp [State.reg, State.resetWith]

theorem resetWith_regHasValue (cfg : Config) (origin : Word) (r : RegIdx) :
    (State.resetWith cfg origin).regHasValue r = decide (cfg.resetGpr = .zero) := by
  unfold State.regHasValue State.resetWith
  rw [Vector.getElem_replicate]
  cases cfg.resetGpr with
  | zero => rfl
  | undefined => rfl

theorem readWord_nil (a : Word) : Memory.readWord [] a = 0x0000#16 :=
  show (0#8 ++ 0#8 : BitVec (8 + 8)) = 0x0000#16 by decide

/-- Settles O1: the registers are read off the replicated values, the other fields are those of the definition. -/
theorem resetLeavesTheStatedValues : Obligations.ResetLeavesTheStatedValues := by
  unfold Obligations.ResetLeavesTheStatedValues
  exact ⟨fun cfg origin => ⟨resetWith_reg cfg origin, resetWith_regHasValue cfg origin, rfl, rfl, readWord_nil, rfl, rfl,
    rfl⟩, rfl⟩

/-! ### Which images launch -/

/-- The big-endian bytes of a list of words (70_reset_and_hazards.md R201). -/
def bigEndianBytes (ws : List Word) : List Byte := ws.flatMap fun w => [highByte w, lowByte w]

theorem launch_of_parseImage_error (cfg : Config) {file : Option (List Byte)} {e : LoadError}
    (h : parseImage file = .error e) : launch cfg file = .error e := by
  simp only [launch, h]

/-- Everything a launch that succeeds does. -/
theorem launch_ok {cfg : Config} {file : Option (List Byte)} {s : State} (h : launch cfg file = .ok s) :
    ∃ img : Image, s = { State.resetWith cfg img.origin with mem := Memory.placeWords [] img.origin img.words } := by
  cases hparse : parseImage file with
  | error e => rw [launch_of_parseImage_error cfg hparse] at h; cases h
  | ok img => rw [launch_of_parseImage cfg hparse] at h; exact ⟨img, (Except.ok.inj h).symm⟩

theorem parseImage_short {bytes : List Byte} (h : bytes.length < 2) : parseImage (some bytes) = .error .truncatedHeader :=
  if_pos h

/-- Two bytes, one word, leave the parity of a byte count. -/
theorem length_cons_cons_mod (hi lo : Byte) (rest : List Byte) : (hi :: lo :: rest).length % 2 = rest.length % 2 :=
  Nat.add_mod_right rest.length 2

theorem bigEndianWords_odd (bytes : List Byte) (h : bytes.length % 2 = 1) : bigEndianWords bytes = none := by
  induction bytes using bigEndianWords.induct with
  | case1 => cases h
  | case2 => rfl
  | case3 hi lo rest ws hws ih => rw [ih (by rwa [length_cons_cons_mod] at h)] at hws; cases hws
  | case4 hi lo rest hnone => simp only [bigEndianWords, hnone]

theorem parseImage_odd {bytes : List Byte} (h2 : 2 ≤ bytes.length) (h : bytes.length % 2 = 1) :
    parseImage (some bytes) = .error .oddByteCount := by
  simp only [parseImage, if_neg (Nat.not_lt.mpr h2), bigEndianWords_odd bytes h]

theorem parseImage_tooLarge {origin : Word} {words : List Word} (h : 65536 < origin.toNat + words.length) :
    parseImage (some (imageBytes origin words)) = .error .tooLarge := by
  have hwords : bigEndianWords (imageBytes origin words) = some (origin :: words) :=
    bigEndianWords_of_bytes (origin :: words)
  have hheader : ¬ (imageBytes origin words).length < 2 := by simp [imageBytes]
  simp only [parseImage, if_neg hheader, hwords, if_neg (Nat.not_le.mpr h)]

/-- An even number of bytes is a list of words. -/
theorem exists_bigEndianBytes (bytes : List Byte) (h : bytes.length % 2 = 0) : ∃ ws, bytes = bigEndianBytes ws := by
  induction bytes using bigEndianWords.induct with
  | case1 => exact ⟨[], rfl⟩
  | case2 => cases h
  | case3 hi lo rest _ _ ih | case4 hi lo rest _ ih =>
    obtain ⟨ws, hws⟩ := ih (by rwa [length_cons_cons_mod] at h)
    refine ⟨(hi ++ lo : BitVec (8 + 8)) :: ws, ?_⟩
    have hhigh : highByte (hi ++ lo : BitVec (8 + 8)) = hi := BitVec.extractLsb'_append_eq_left
    have hlow : lowByte (hi ++ lo : BitVec (8 + 8)) = lo := BitVec.extractLsb'_append_eq_right
    rw [bigEndianBytes, List.flatMap_cons, hhigh, hlow, hws]
    rfl

theorem exists_imageBytes (bytes : List Byte) (h2 : 2 ≤ bytes.length) (h : bytes.length % 2 = 0) :
    ∃ origin words, bytes = imageBytes origin words := by
  obtain ⟨ws, rfl⟩ := exists_bigEndianBytes bytes h
  cases ws with
  | nil => cases h2
  | cons origin words => exact ⟨origin, words, rfl⟩

/-- Settles O4: the parser's tests in their order, and every even byte stream read back as words. -/
theorem launchRefusesExactlyBadImages : Obligations.LaunchRefusesExactlyBadImages := by
  unfold Obligations.LaunchRefusesExactlyBadImages
  exact fun cfg => ⟨rfl, fun _ h => launch_of_parseImage_error cfg (parseImage_short h),
    fun _ h2 h => launch_of_parseImage_error cfg (parseImage_odd h2 h),
    fun _ _ h => launch_of_parseImage_error cfg (parseImage_tooLarge h),
    fun _ _ h => ⟨_, launch_of_parseImage cfg (parseImage_imageBytes h)⟩, exists_imageBytes⟩

/-! ### What a launch leaves -/

/-- Settles O3: an image that launches fits, so it is placed as it stands, over the empty memory of reset. -/
theorem launchLeavesTheRestZero : Obligations.LaunchLeavesTheRestZero := by
  unfold Obligations.LaunchLeavesTheRestZero
  intro cfg origin words s hlaunch
  by_cases hfits : origin.toNat + words.length ≤ 65536
  case pos =>
    rw [launch_of_parseImage cfg (parseImage_imageBytes hfits)] at hlaunch
    obtain rfl := Except.ok.inj hlaunch
    exact ⟨rfl, fun a hout => (readWord_placeWords_outside [] origin a words hout).trans (readWord_nil a)⟩
  case neg =>
    rw [launch_of_parseImage_error cfg (parseImage_tooLarge (Nat.not_le.mp hfits))] at hlaunch
    cases hlaunch

theorem placeWords_wf (m : Memory) (a : Word) (ws : List Word) (h : m.wf) : (m.placeWords a ws).wf := by
  induction ws generalizing m a with
  | nil => exact h
  | cons w ws ih => exact ih (m.writeWord a w) (a + 1#16) (Memory.writeWord_wf m a w h)

theorem resetWith_inv (cfg : Config) (origin : Word) : (State.resetWith cfg origin).Inv where
  mem_wf := Memory.wf_nil
  cond_oneHot := .inr (.inl rfl)
  written_rising := .nil
  written_bound := fun _ h => absurd h List.not_mem_nil
  written_policy := fun _ => rfl
  regs_valued := fun hzero r => (resetWith_regHasValue cfg origin r).trans (decide_eq_true hzero)
  fault_allowed := fun _ h => absurd h (Option.some_ne_none _).symm
  fault_running := fun h => absurd rfl h

theorem launch_inv {cfg : Config} {file : Option (List Byte)} {s : State} (h : launch cfg file = .ok s) : s.Inv := by
  obtain ⟨img, rfl⟩ := launch_ok h
  exact { resetWith_inv cfg img.origin with mem_wf := placeWords_wf [] img.origin img.words Memory.wf_nil }

/-- Settles O58: reset has the invariant under every setting, and placing words keeps memory canonical. -/
theorem invariantHoldsAtLaunch : Obligations.InvariantHoldsAtLaunch := by
  unfold Obligations.InvariantHoldsAtLaunch
  exact ⟨resetWith_inv _ _, fun _ _ _ => launch_inv⟩

/-! ### One store -/

theorem mem_noteWritten_of_fault {s : State} (h : s.cfg.smcPolicy = .fault) (a : Word) (b : Nat) :
    b ∈ (s.noteWritten a).written ↔ b = a.toNat ∨ b ∈ s.written := by
  rw [State.noteWritten_written, h]
  exact mem_insertAddr s.written a.toNat b

theorem noteWritten_of_coherent {s : State} (h : s.cfg.smcPolicy = .coherent) (a : Word) :
    (s.noteWritten a).written = s.written := by
  rw [State.noteWritten_written, h]

/-- Settles O14: read after write, the other bytes, and the set of written addresses. -/
theorem writeStoresOneWord : Obligations.WriteStoresOneWord := by
  unfold Obligations.WriteStoresOneWord
  intro s a v
  refine ⟨readWord_memWrite_same s a v, fun k hk => ?_, fun h b => ?_, fun h => ?_⟩
  · have hne : ∀ l : Lane, k ≠ l.key a := hk a List.mem_cons_self
    exact Memory.readByte_writeWord_ne _ a v k ⟨hne .low, hne .high⟩
  · exact mem_noteWritten_of_fault (s := { s with mem := s.mem.writeWord a v }) h a b
  · exact noteWritten_of_coherent (s := { s with mem := s.mem.writeWord a v }) h a

/-! ### One read -/

/-- Settles O15: away from `KBSR_ADDR` the intercept leaves the state as it is. -/
theorem plainReadChangesNothing : Obligations.PlainReadChangesNothing := by
  unfold Obligations.PlainReadChangesNothing
  intro s a hne
  rw [State.memRead, s.touch_plain a hne]

theorem keyPoll_none_of_no_key {keys : List (Option Byte)} (h : keys = [] ∨ ∃ ks, keys = none :: ks) :
    (keyPoll keys).1 = none := by
  rcases h with rfl | ⟨ks, rfl⟩
  · rfl
  · rfl

/-- Settles O16: the sample with a key writes status and data, without one the status alone; the two words are distinct. -/
theorem statusReadSamplesTheKeyboard : Obligations.StatusReadSamplesTheKeyboard := by
  unfold Obligations.StatusReadSamplesTheKeyboard
  intro s hwf
  refine ⟨fun c ks hkeys => ?key, fun hnone => ?noKey, afterReads_sameBytes_keyboard s [s.cfg.kbsrAddr], rfl⟩
  case key =>
    simp only [s.memRead_fst, s.memRead_snd, s.touch_key c ks hkeys]
    have hstatus : ((s.mem.writeWord s.cfg.kbsrAddr 0x8000#16).writeWord s.cfg.kbdrAddr (c.setWidth 16)).readWord
        s.cfg.kbsrAddr = 0x8000#16 := by
      rw [Memory.readWord_writeWord_ne _ _ _ _ hwf, Memory.readWord_writeWord_same]
    exact ⟨hstatus, hstatus, Memory.readWord_writeWord_same _ _ _, trivial⟩
  case noKey =>
    simp only [s.memRead_fst, s.memRead_snd, s.touch_noKey (keyPoll_none_of_no_key hnone)]
    exact ⟨Memory.readWord_writeWord_same _ _ _, Memory.readWord_writeWord_same _ _ _,
      Memory.readWord_writeWord_ne _ _ _ _ hwf.symm, trivial⟩

/-! ### One patch -/

/-- Replacing the low byte of a word (70_reset_and_hazards.md R216). -/
theorem append_low_byte (hi lo b : Byte) :
    (hi ++ b : BitVec (8 + 8)) = ((hi ++ lo : BitVec (8 + 8)) &&& 0xFF00#16) ||| b.setWidth 16 := by
  apply BitVec.eq_of_getLsbD_eq
  intro k hk
  simp only [BitVec.getLsbD_or, BitVec.getLsbD_and, BitVec.getLsbD_append, BitVec.getLsbD_setWidth]
  interval_cases k <;> simp (decide := true)

/-- Replacing the high byte of a word (70_reset_and_hazards.md R216). -/
theorem append_high_byte (hi lo b : Byte) :
    (b ++ lo : BitVec (8 + 8)) = ((hi ++ lo : BitVec (8 + 8)) &&& 0x00FF#16) ||| (b.setWidth 16 <<< 8) := by
  apply BitVec.eq_of_getLsbD_eq
  intro k hk
  simp only [BitVec.getLsbD_or, BitVec.getLsbD_and, BitVec.getLsbD_append, BitVec.getLsbD_shiftLeft,
    BitVec.getLsbD_setWidth]
  interval_cases k <;> simp (decide := true)

theorem readWord_writeByte_low (m : Memory) (a : Word) (b : Byte) :
    (m.writeByte (Lane.key .low a) b).readWord a = (m.readWord a &&& 0xFF00#16) ||| b.setWidth 16 := by
  unfold Memory.readWord
  rw [Memory.readByte_writeByte_same, Memory.readByte_writeByte_ne _ _ _ _ (Lane.high_ne_low a a)]
  exact append_low_byte _ _ b

theorem readWord_writeByte_high (m : Memory) (a : Word) (b : Byte) :
    (m.writeByte (Lane.key .high a) b).readWord a = (m.readWord a &&& 0x00FF#16) ||| (b.setWidth 16 <<< 8) := by
  unfold Memory.readWord
  rw [Memory.readByte_writeByte_same, Memory.readByte_writeByte_ne _ _ _ _ (Lane.high_ne_low a a).symm]
  exact append_high_byte _ _ b

/-- Settles O57: a patch writes one byte of the word, and records the word's address as a store does. -/
theorem patchReplacesOneByte : Obligations.PatchReplacesOneByte := by
  unfold Obligations.PatchReplacesOneByte
  intro s a b
  refine ⟨readWord_writeByte_low s.mem a b, readWord_writeByte_high s.mem a b, fun l => ⟨fun k hk => ?_, rfl, fun h => ?_⟩⟩
  · exact Memory.readByte_writeByte_ne _ _ _ _ (hk a List.mem_cons_self l)
  · exact (mem_noteWritten_of_fault (s := { s with mem := s.mem.writeByte (l.key a) b }) h a _).mpr (.inl rfl)

end Sys2Proof
end

section
/-! Steps and instructions whose outcome is stated whole (30_encoding.md R81; 40_operate.md R106; 42_control.md R132 to R135;
43_trap.md R152 to R158; 10_state.md R38): when a block does not step, when an instruction waits, what the remaining
instructions answer, and what an operand without a value raises; the lemmas behind O11 to O13, O23, O36, O38, O40, O41, O43,
O46, O47 and O49. -/

namespace Sys2Proof
open Machine

/-! ### Steps -/

theorem blocked_of_fault {s : State} {r : FaultRecord} (h : s.fault = some r) : s.blocked = some (.alreadyFaulted r) := by
  simp [State.blocked, h]

theorem blocked_of_not_running {s : State} (hfault : s.fault = none) (h : s.running = false) :
    s.blocked = some .halted := by
  simp [State.blocked, hfault, h]

theorem blocked_of_shutdown {s : State} (hfault : s.fault = none) (hrunning : s.running = true)
    (h : s.shutdown = true) : s.blocked = some .shutDown := by
  simp [State.blocked, hfault, hrunning, h]

/-- Settles O11: a next state only where nothing blocks the step, and otherwise the stop that `State.blocked` names. -/
theorem noStepWhenStopped : Obligations.NoStepWhenStopped := by
  unfold Obligations.NoStepWhenStopped
  exact fun s => ⟨fun _ ht => s.blocked_eq_none.mp (step_next ht).1, fun _ h => step_of_blocked (blocked_of_fault h),
    fun hfault h => step_of_blocked (blocked_of_not_running hfault h),
    fun hfault hrunning h => step_of_blocked (blocked_of_shutdown hfault hrunning h)⟩

theorem placeWord_fetchAllowed (s : State) (v : Word) : FetchAllowed (s.placeWord v) := by
  refine .inr fun hmem => ?_
  have hne := (List.mem_filter.mp hmem).2
  exact absurd rfl (bne_iff_ne.mp hne)

/-- The word placed at PC is the word fetched, unless the fetch samples the keyboard. -/
theorem fetch_placeWord {s : State} (hpc : s.pc ≠ s.cfg.kbsrAddr) (v : Word) :
    (s.placeWord v).fetch = (v, (s.placeWord v).setPc (s.pc + 1#16)) := by
  have htouch : (s.placeWord v).touch s.pc = s.placeWord v := State.touch_plain _ _ hpc
  have hword : (s.placeWord v).mem.readWord s.pc = v := Memory.readWord_writeWord_same _ _ _
  show (((s.placeWord v).memRead s.pc).1, ((s.placeWord v).memRead s.pc).2.setPc (s.pc + 1#16)) = _
  rw [State.memRead_fst, State.memRead_snd, htouch, hword]

/-- Settles O12: the placed word passes the fetch check and is the word fetched. -/
theorem placedWordIsRunNext : Obligations.PlacedWordIsRunNext := by
  unfold Obligations.PlacedWordIsRunNext
  intro s w hcan hpc hw
  have hplace : s.withFetchWord 16 w = s.placeWord (BitVec.ofNat 16 w) := by
    rw [State.withFetchWord, Nat.mod_eq_of_lt hw]
  have hcan' : CanStep (s.placeWord (BitVec.ofNat 16 w)) := hcan
  rw [hplace]
  refine ⟨?_, fun k hk => ?_⟩
  · rw [step_of_fetchAllowed hcan' (placeWord_fetchAllowed s _), fetch_placeWord hpc]
  · have hne : ∀ l : Lane, k ≠ l.key s.pc := hk s.pc List.mem_cons_self
    exact Memory.readByte_writeWord_ne _ _ _ _ ⟨hne .low, hne .high⟩

/-! ### Which instructions wait -/

/-- `r` is a next state. -/
def Completes (r : Result) : Prop := ∃ t, r = .next t

theorem Completes.next (t : State) : Completes (.next t) := ⟨t, rfl⟩

theorem Completes.readReg {s : State} {r : RegIdx} {k : Word → Result} (h : ∀ v, Completes (k v)) :
    Completes (s.readReg r k) := by
  unfold State.readReg
  split
  · exact h _
  · exact .next _

theorem Completes.withInput {s : State} {k : Byte → State → Result} (hkeys : nextByte s.keys ≠ none)
    (h : ∀ c t, Completes (k c t)) : Completes (s.withInput k) := by
  obtain ⟨⟨c, ks⟩, hk⟩ := Option.ne_none_iff_exists'.mp hkeys
  rw [s.withInput_some k c ks hk]
  exact h c _

/-- The instructions that take a byte of the input source (43_trap.md R161). -/
def TakesByte (i : Instr) (s : State) : Prop := i = .trap 0x20#8 ∨ (i = .trap 0x23#8 ∧ s.cfg.inMode = .echo)

theorem exec_of_no_byte {i : Instr} {s : State} (hi : TakesByte i s) (hkeys : nextByte s.keys = none) :
    exec i s = .fault .awaitingInput := by
  rcases hi with rfl | ⟨rfl, hecho⟩
  · show trapGetc s.enterTrap = _
    exact s.enterTrap.withInput_none _ hkeys
  · show trapIn s.enterTrap = _
    have hecho' : s.enterTrap.cfg.inMode = .echo := hecho
    rw [trapIn, hecho']
    exact s.enterTrap.withInput_none _ hkeys

theorem trap_completes {v : Byte} {s : State} (h : TakesByte (.trap v) s → nextByte s.keys ≠ none) :
    Completes (exec (.trap v) s) := by
  show Completes (trapRoutine v s.enterTrap)
  have hends : ∀ a p, Completes (stringEnd a p) := fun a p => stringEnd_eq a p ▸ .next _
  rcases trapRoutine_cases v with ⟨rfl, hv⟩ | ⟨rfl, hv⟩ | ⟨rfl, hv⟩ | ⟨rfl, hv⟩ | ⟨rfl, hv⟩ | ⟨rfl, hv⟩ | ⟨hout, hv⟩ <;>
    rw [hv]
  · exact .withInput (h (.inl rfl)) fun _ _ => .next _
  · exact .readReg fun _ => .next _
  · exact .readReg fun _ => hends _ _
  · unfold trapIn
    cases hmode : s.enterTrap.cfg.inMode with
    | echo => exact .withInput (h (.inr ⟨rfl, hmode⟩)) fun _ _ => .next _
    | noop => exact .next _
  · exact .readReg fun _ => hends _ _
  · exact .next _
  · exact .next _

theorem exec_completes {i : Instr} {s : State} (h : TakesByte i s → nextByte s.keys ≠ none) : Completes (exec i s) := by
  cases i with
  | trap v => exact trap_completes h
  | addReg | andReg | str => exact .readReg fun _ => .readReg fun _ => .next _
  | addImm | andImm | notReg | st | ldr | sti | jmp => exact .readReg fun _ => .next _
  | jsrr baseR =>
    show Completes (execJsrr baseR s)
    unfold execJsrr
    split <;> exact .readReg fun _ => .next _
  | br | ld | ldi | lea | jsr | rti | res => exact .next _

/-- Settles O13: the two waiting routines without a byte, and every other execution. -/
theorem onlyInputRoutinesWait : Obligations.OnlyInputRoutinesWait := by
  unfold Obligations.OnlyInputRoutinesWait
  exact fun i s => ⟨fun ⟨hi, hkeys⟩ => exec_of_no_byte hi hkeys, fun h => exec_completes fun hi hkeys => h ⟨hi, hkeys⟩⟩

/-! ### The mode bit -/

/-- An immediate operand, and a register operand that holds it, give the same outcome. -/
theorem readReg_readReg_of_eq {s : State} {sr2 : RegIdx} {imm : Word} (hvalue : s.regHasValue sr2 = true)
    (himm : s.reg sr2 = imm) (sr1 : RegIdx) (k : Word → Word → Result) :
    (s.readReg sr1 fun a => k a imm) = s.readReg sr1 fun a => s.readReg sr2 fun b => k a b := by
  subst himm
  congr 1
  funext a
  exact (s.readReg_of_hasValue sr2 _ hvalue).symm

/-- Settles O23: both pairs of forms differ in the second operand only. -/
theorem modeBitEquivalence : Obligations.ModeBitEquivalence := by
  unfold Obligations.ModeBitEquivalence
  exact fun dr sr1 sr2 imm5 s hvalue himm =>
    ⟨readReg_readReg_of_eq hvalue himm sr1 fun a b => .next (s.define dr (a + b)),
      readReg_readReg_of_eq hvalue himm sr1 fun a b => .next (s.define dr (a &&& b))⟩

/-! ### JSRR and the unsupported opcodes -/

theorem execJsrr_linkFirst {s : State} (horder : s.cfg.jsrrOrder = .linkFirst) (baseR : RegIdx) :
    execJsrr baseR s =
      (s.setReg linkReg s.pc).readReg baseR fun t => .next ((s.setReg linkReg s.pc).setPc t) := by
  unfold execJsrr
  rw [horder]

theorem execJsrr_baseFirst {s : State} (horder : s.cfg.jsrrOrder = .baseFirst) (baseR : RegIdx) :
    execJsrr baseR s = s.readReg baseR fun t => .next ((s.setReg linkReg s.pc).setPc t) := by
  unfold execJsrr
  rw [horder]

/-- After the link is written, the base register is R7 or holds what it held. -/
theorem reg_linked (s : State) (baseR : RegIdx) :
    (s.setReg linkReg s.pc).reg baseR = if baseR = 7#3 then s.pc else s.reg baseR := by
  by_cases h : baseR = 7#3
  case pos => rw [if_pos h, h]; exact s.reg_setReg_same 7#3 s.pc
  case neg => rw [if_neg h]; exact s.reg_setReg_ne linkReg baseR s.pc h

theorem regHasValue_linked {s : State} {baseR : RegIdx} (h : baseR = 7#3 ∨ s.regHasValue baseR = true) :
    (s.setReg linkReg s.pc).regHasValue baseR = true := by
  rcases h with rfl | h
  · exact s.regHasValue_setReg_same linkReg s.pc
  · exact regHasValue_setReg_of_regHasValue h linkReg s.pc

/-- Settles O36: the base is read after the link with `link_first`, before it with `base_first`. -/
theorem jumpToSubroutineRegisterResult : Obligations.JumpToSubroutineRegisterResult := by
  unfold Obligations.JumpToSubroutineRegisterResult
  refine ⟨decode_jsrr_of_mask, fun baseR s => ⟨fun horder hbase => ?linkFirst, fun horder hbase => ?baseFirst⟩⟩
  all_goals have hlink : (s.setReg linkReg s.pc).reg 7#3 = s.pc := s.reg_setReg_same linkReg s.pc
  case linkFirst =>
    have hexec := (execJsrr_linkFirst horder baseR).trans (State.readReg_of_hasValue _ _ _ (regHasValue_linked hbase))
    exact ⟨_, hexec, hlink, rfl, rfl, reg_linked s baseR⟩
  case baseFirst =>
    have hexec := (execJsrr_baseFirst horder baseR).trans (s.readReg_of_hasValue baseR _ hbase)
    exact ⟨_, hexec, hlink, rfl, rfl, rfl⟩

theorem unsupported_fault_of_fault {s : State} (h : s.cfg.unsupportedPolicy = .fault) (k : FaultRecord) :
    (s.unsupported k).fault = some k := by
  rw [s.unsupported_fault, h]

theorem unsupported_fault_of_goOn {s : State} (h : s.cfg.unsupportedPolicy = .goOn) (k : FaultRecord) :
    (s.unsupported k).fault = s.fault := by
  rw [s.unsupported_fault, h]

/-- Settles O38: RTI and RES are the unsupported path with their own record, and each kind has its code. -/
theorem unsupportedOpcodeResult : Obligations.UnsupportedOpcodeResult := by
  unfold Obligations.UnsupportedOpcodeResult
  refine ⟨fun _ _ _ => ⟨rfl, rfl, rfl, rfl, rfl, rfl⟩, fun s i op hi => ?_⟩
  have hexec : exec i s = .next (s.unsupported (.unsupportedOpcode op s.fetchAddr)) := by
    simp only [List.mem_cons, List.not_mem_nil, or_false, Prod.mk.injEq] at hi
    rcases hi with ⟨rfl, rfl⟩ | ⟨rfl, rfl⟩
    · rfl
    · rfl
  exact ⟨_, hexec, s.unsupported_pc _, s.unsupported_diags _, fun h => unsupported_fault_of_fault h _,
    fun h => unsupported_fault_of_goOn h _⟩

/-! ### TRAP -/

theorem enterTrap_reg_link (s : State) : s.enterTrap.reg 7#3 = s.pc := s.reg_setReg_same linkReg s.pc

/-- R0 is not the link register, so defining it leaves the link. -/
theorem define_zero_reg_link (s : State) (v : Word) : (s.define 0#3 v).reg 7#3 = s.reg 7#3 :=
  s.reg_setReg_ne 0#3 7#3 v (by decide)

/-- Settles O40: GETC defines R0 by the byte, in the state with the link written and the byte consumed. -/
theorem getcResult : Obligations.GetcResult := by
  unfold Obligations.GetcResult
  intro s c ks hkeys
  have hdef : Defines s (State.define { s.enterTrap with keys := ks } 0#3 (c.setWidth 16)) 0#3 (c.setWidth 16) :=
    define_defines { s.enterTrap with keys := ks } 0#3 _
  have hexec : trapGetc s.enterTrap = _ := s.enterTrap.withInput_some _ c ks hkeys
  exact ⟨_, hexec, hdef, (define_zero_reg_link _ _).trans (enterTrap_reg_link s), rfl,
    rfl, fun _ _ => rfl⟩

/-- Settles O41: OUT emits in the state with the link written; what it leaves alone is its frame. -/
theorem outResult : Obligations.OutResult := by
  unfold Obligations.OutResult
  intro s h0
  have hexec : exec (.trap 0x21#8) s = .next (s.enterTrap.emit (lowByte (s.reg 0#3))) :=
    enterTrap_readReg_zero h0 fun v => .next (s.enterTrap.emit (lowByte v))
  have hf := exec_frame hexec
  exact ⟨_, hexec, rfl, enterTrap_reg_link s, s.reg_setReg_ne linkReg 0#3 s.pc (by decide), rfl, rfl, rfl, hf.regs,
    hf.bytes, ⟨rfl, rfl, rfl, rfl⟩, rfl, rfl, rfl⟩

theorem trapIn_echo {s : State} (hecho : s.cfg.inMode = .echo) {c : Byte} {ks : List (Option Byte)}
    (hkeys : nextByte s.keys = some (c, ks)) :
    trapIn s = .next ((State.emit { s with keys := ks } c).define 0#3 (c.setWidth 16)) := by
  unfold trapIn
  rw [hecho]
  exact s.withInput_some _ c ks hkeys

theorem trapIn_noop {s : State} (hnoop : s.cfg.inMode = .noop) : trapIn s = .next s := by
  unfold trapIn
  rw [hnoop]

/-- Settles O43: IN with echo is GETC with the byte emitted first, and with noop the link alone. -/
theorem inResult : Obligations.InResult := by
  unfold Obligations.InResult
  refine fun s => ⟨fun hecho c ks hkeys => ?echo, fun hnoop => ?noop⟩
  case echo =>
    have hexec := trapIn_echo (s := s.enterTrap) hecho hkeys
    exact ⟨_, hexec, define_defines (State.emit { s.enterTrap with keys := ks } c) 0#3 _,
      (define_zero_reg_link _ _).trans (enterTrap_reg_link s), rfl, rfl, fun _ _ => rfl⟩
  case noop =>
    have hexec : exec (.trap 0x23#8) s = .next s.enterTrap := trapIn_noop (s := s.enterTrap) hnoop
    have hregs : SameRegsOutside s s.enterTrap [linkReg] := by
      intro r hr
      have hne : r ≠ linkReg := fun e => hr (List.mem_singleton.mpr e)
      exact ⟨s.reg_setReg_ne linkReg r s.pc hne, s.regHasValue_setReg_ne linkReg r s.pc hne⟩
    exact ⟨_, hexec, enterTrap_reg_link s, hregs, rfl, rfl, rfl, rfl, rfl⟩

/-- Settles O46: HALT's state does not run, so with no fault the next step stops as halted. -/
theorem haltEndsTheRun : Obligations.HaltEndsTheRun := by
  unfold Obligations.HaltEndsTheRun
  intro s
  have hexec : exec (.trap 0x25#8) s =
      .next { s.enterTrap with console := s.console ++ s.cfg.haltMessage, running := false } := by
    show trapHalt s.enterTrap = _
    rw [trapHalt, foldl_emit]
    rfl
  exact ⟨_, hexec, rfl, rfl, enterTrap_reg_link s, rfl, rfl, rfl,
    fun hfault => step_of_blocked (blocked_of_not_running hfault rfl)⟩

theorem trapRoutine_of_unknown {v : Byte} (h : v.toNat < 0x20 ∨ 0x25 < v.toNat) : trapRoutine v = trapUnknown v := by
  rcases trapRoutine_cases v with ⟨rfl, -⟩ | ⟨rfl, -⟩ | ⟨rfl, -⟩ | ⟨rfl, -⟩ | ⟨rfl, -⟩ | ⟨rfl, -⟩ | ⟨-, hv⟩
  case inr.inr.inr.inr.inr.inr => exact hv
  all_goals exact absurd h (by decide)

/-- Settles O47: an unknown vector is the unsupported path in the state with the link written. -/
theorem unknownVectorResult : Obligations.UnknownVectorResult := by
  unfold Obligations.UnknownVectorResult
  intro s v hv
  have hexec : exec (.trap v) s = .next (s.enterTrap.unsupported (.unknownTrapVector v (s.pc - 1#16))) :=
    congrFun (trapRoutine_of_unknown hv) s.enterTrap
  exact ⟨_, hexec, (State.reg_unsupported _ _ _).trans (enterTrap_reg_link s), State.unsupported_pc _ _,
    State.unsupported_cond _ _, State.unsupported_diags _ _, fun h => unsupported_fault_of_fault (s := s.enterTrap) h _,
    fun h => unsupported_fault_of_goOn (s := s.enterTrap) h _⟩

/-! ### Registers without a value -/

theorem readReg_raises {s : State} {r : RegIdx} (h : s.regHasValue r = false) (k : Word → Result) :
    s.readReg r k = .next (s.raise (.unwrittenRegister r (s.pc - 1#16))) :=
  s.readReg_of_noValue r k h

/-- The second of two operands, where the first holds a value. -/
theorem readReg_readReg_raises {s : State} {q r : RegIdx} (hq : s.regHasValue q = true) (hr : s.regHasValue r = false)
    (k : Word → Word → Result) :
    (s.readReg q fun a => s.readReg r (k a)) = .next (s.raise (.unwrittenRegister r (s.pc - 1#16))) :=
  (s.readReg_of_hasValue q _ hq).trans (readReg_raises hr _)

/-- Settles O49: each instruction reads its operands in order, STI after its pointer read, JSRR by its order, and TRAP after
its link. -/
theorem unwrittenRegisterRaises : Obligations.UnwrittenRegisterRaises := by
  unfold Obligations.UnwrittenRegisterRaises
  intro s dr r q off hr
  refine ⟨?first, fun hq => ?second, ?sti, fun horder => ?baseFirst, fun horder hne => ?linkFirst, ?trap⟩
  case first =>
    simp only [List.forall_mem_cons]
    have h := readReg_raises hr
    exact ⟨(h _ : execAddReg dr r q s = _), (h _ : execAddImm dr r off s = _), (h _ : execAndReg dr r q s = _),
      (h _ : execAndImm dr r off s = _), (h _ : execNot dr r s = _), (h _ : execLdr dr r off s = _),
      (h _ : execSt r off s = _), (h _ : execStr q r off s = _), (h _ : execJmp r s = _), by simp⟩
  case second =>
    simp only [List.forall_mem_cons]
    exact ⟨readReg_readReg_raises hq hr fun a b => .next (s.define dr (a + b)),
      readReg_readReg_raises hq hr fun a b => .next (s.define dr (a &&& b)),
      readReg_readReg_raises hq hr fun b v => .next (s.memWrite (baseOff b off) v), by simp⟩
  case sti =>
    have htouched : (s.touch (s.pcRel off)).regHasValue r = false := (s.regHasValue_touch _ r).trans hr
    exact (readReg_raises htouched _ : execSti r off s = _)
  case baseFirst => exact (execJsrr_baseFirst horder r).trans (readReg_raises hr _)
  case linkFirst =>
    have hlinked : (s.setReg linkReg s.pc).regHasValue r = false := (s.regHasValue_setReg_ne _ _ _ hne).trans hr
    exact (execJsrr_linkFirst horder r).trans (readReg_raises hlinked _)
  case trap =>
    rintro rfl
    have hlinked : s.enterTrap.regHasValue 0#3 = false := (s.regHasValue_setReg_ne _ _ _ (by decide)).trans hr
    simp only [List.forall_mem_cons]
    have h := readReg_raises hlinked
    exact ⟨(h _ : trapOut s.enterTrap = _), (h _ : trapPuts s.enterTrap = _), (h _ : trapPutsp s.enterTrap = _), by simp⟩

end Sys2Proof
end

section
/-! Host actions and runs (70_reset_and_hazards.md R206 to R210): what each action changes, that the invariant holds of every
reachable state and what such a state shows of its end, and that a run has exactly one of the five ends; the lemmas behind O56
and O60. -/

namespace Sys2Proof
open Machine

/-! ### One host action -/

theorem host_sameRegs (s : State) (h : HostAction) : SameRegsOutside s (s.host h) [] := fun r _ =>
  ⟨State.reg_congr (s.host_regs h) r, State.regHasValue_congr (s.host_hasValue h) r⟩

theorem host_memory {s : State} {h : HostAction} (hnot : ∀ a l b, h ≠ .patch a l b) :
    (s.host h).written = s.written ∧ (s.host h).mem = s.mem := by
  cases h with
  | patch a l b => exact absurd rfl (hnot a l b)
  | engageGate | releaseGate | requestShutdown | supplyKeys => exact ⟨rfl, rfl⟩

theorem host_patch_written (s : State) (a : Word) (l : Lane) (b : Byte) :
    (s.cfg.smcPolicy = .fault → ∀ x, x ∈ (s.host (.patch a l b)).written ↔ x = a.toNat ∨ x ∈ s.written) ∧
    (s.cfg.smcPolicy = .coherent → (s.host (.patch a l b)).written = s.written) :=
  ⟨fun h => mem_noteWritten_of_fault (s := { s with mem := s.mem.writeByte (l.key a) b }) h a,
    fun h => noteWritten_of_coherent (s := { s with mem := s.mem.writeByte (l.key a) b }) h a⟩

theorem host_gate (s : State) (h : HostAction) :
    (s.host h).gate = (if h = .engageGate then true else if h = .releaseGate then false else s.gate) := by
  cases h with
  | patch | engageGate | releaseGate | requestShutdown | supplyKeys => rfl

theorem host_shutdown_eq (s : State) (h : HostAction) :
    (s.host h).shutdown = (if h = .requestShutdown then true else s.shutdown) := by
  cases h with
  | patch | engageGate | releaseGate | requestShutdown | supplyKeys => rfl

theorem host_keys {s : State} {h : HostAction} (hnot : ∀ ks, h ≠ .supplyKeys ks) : (s.host h).keys = s.keys := by
  cases h with
  | supplyKeys ks => exact absurd rfl (hnot ks)
  | patch | engageGate | releaseGate | requestShutdown => rfl

/-- A shut-down block stays blocked whatever the host does next, so it takes no step. -/
theorem step_ne_next_of_shutdown {s : State} (h : s.shutdown = true) (hs : List HostAction) (t : State) :
    step (hs.foldl State.host s) ≠ .next t := by
  intro ht
  cases hblocked : s.blocked with
  | none =>
    obtain ⟨-, -, hopen⟩ := s.blocked_eq_none.mp hblocked
    exact absurd (h.symm.trans hopen) Bool.noConfusion
  | some f =>
    have hfree := (step_next ht).1
    rw [foldl_host_blocked hs hblocked] at hfree
    cases hfree

/-- Settles O56: each action's effect, field by field, and the shutdown request, which no action withdraws. -/
theorem hostActionsKeepTheMachineState : Obligations.HostActionsKeepTheMachineState := by
  unfold Obligations.HostActionsKeepTheMachineState
  refine fun s h => ⟨host_sameRegs s h, s.host_cond h, s.host_pc h, s.host_running h, s.host_fault h, s.host_cfg h,
    s.host_console h, s.host_diags h, host_memory, ?_, host_gate s h, host_shutdown_eq s h, fun _ => rfl, host_keys,
    step_ne_next_of_shutdown rfl⟩
  rintro a l b rfl
  exact host_patch_written s a l b

/-! ### Reachable states -/

theorem Inv.host {s : State} (h : s.Inv) (a : HostAction) : (s.host a).Inv := by
  cases a with
  | patch a l b =>
    have hbyte : State.Inv { s with mem := s.mem.writeByte (l.key a) b } :=
      { h with mem_wf := Memory.writeByte_wf s.mem _ b (l.key_lt a) h.mem_wf }
    exact noteWritten_inv hbyte a
  | engageGate | releaseGate | requestShutdown | supplyKeys => exact { h with }

/-- No step changes the parameters: those of the frame after a fetch, or of a raised fault. -/
theorem step_cfg {s t : State} (h : step s = .next t) : t.cfg = s.cfg := by
  obtain ⟨-, ⟨-, rfl⟩ | ⟨-, hexec⟩⟩ := step_next h
  · rfl
  · exact (exec_frame hexec).cfg

theorem reachable_inv {cfg : Config} {s : State} (h : Reachable cfg s) : s.Inv ∧ s.cfg = cfg := by
  induction h with
  | launched file s hlaunch =>
    obtain ⟨img, rfl⟩ := launch_ok hlaunch
    exact ⟨launch_inv hlaunch, rfl⟩
  | stepped s t _ hstep ih => exact ⟨Inv.step ih.1 hstep, (step_cfg hstep).trans ih.2⟩
  | hosted s a _ ih => exact ⟨Inv.host ih.1 a, (s.host_cfg a).trans ih.2⟩

/-! ### The end a state shows -/

/-- The end a stop stands for; waiting for input is none (70_reset_and_hazards.md R210, R213). -/
def endOfStop : Fault → Option RunEnd
  | .alreadyFaulted r => some (.faulted r)
  | .halted => some .halted
  | .shutDown => some .shutDown
  | .awaitingInput => none

/-- A state shows the end of the stop that blocks it. -/
theorem ended_eq (s : State) : s.ended = s.blocked.bind endOfStop := by
  unfold State.ended
  cases hblocked : s.blocked with
  | some f =>
    rw [step_of_blocked hblocked]
    cases f with
    | alreadyFaulted | halted | shutDown | awaitingInput => rfl
  | none =>
    rcases step_of_not_blocked hblocked with ⟨t, ht⟩ | hwait
    · rw [ht]; rfl
    · rw [hwait]; rfl

/-- `State.blocked`, read off the three fields. -/
theorem blocked_cases (s : State) :
    (∃ r, s.fault = some r ∧ s.blocked = some (.alreadyFaulted r)) ∨
    (s.fault = none ∧ s.running = false ∧ s.blocked = some .halted) ∨
    (s.fault = none ∧ s.running = true ∧ s.shutdown = true ∧ s.blocked = some .shutDown) ∨
    (s.fault = none ∧ s.running = true ∧ s.shutdown = false ∧ s.blocked = none) := by
  cases hfault : s.fault with
  | some r => exact .inl ⟨r, rfl, blocked_of_fault hfault⟩
  | none =>
    cases hrunning : s.running with
    | false => exact .inr (.inl ⟨rfl, rfl, blocked_of_not_running hfault hrunning⟩)
    | true =>
      cases hshutdown : s.shutdown with
      | true => exact .inr (.inr (.inl ⟨rfl, rfl, rfl, blocked_of_shutdown hfault hrunning hshutdown⟩))
      | false => exact .inr (.inr (.inr ⟨rfl, rfl, rfl, s.blocked_eq_none.mpr ⟨hfault, hrunning, hshutdown⟩⟩))

/-- On a state whose faults are of running blocks, the four answers of `State.ended` are told by the fields. -/
theorem ended_iff {s : State} (h : s.Inv) :
    (s.ended = some .halted ↔ s.running = false) ∧
    (∀ r, s.ended = some (.faulted r) ↔ s.fault = some r) ∧
    (s.ended = some .shutDown ↔ s.shutdown = true ∧ s.running = true ∧ s.fault = none) := by
  rw [ended_eq]
  rcases blocked_cases s with ⟨r, hfault, hb⟩ | ⟨hfault, hrunning, hb⟩ | ⟨hfault, hrunning, hshutdown, hb⟩ |
    ⟨hfault, hrunning, hshutdown, hb⟩
  · have hrunning : s.running = true := h.fault_running (hfault ▸ Option.some_ne_none r)
    simp [hb, endOfStop, hfault, hrunning]
  · simp [hb, endOfStop, hfault, hrunning]
  · simp [hb, endOfStop, hfault, hrunning, hshutdown]
  · simp [hb, hfault, hrunning, hshutdown]

theorem endOfStop_eq_none {f : Fault} : endOfStop f = none ↔ f = .awaitingInput := by
  cases f <;> simp [endOfStop]

/-- A state shows no end exactly when it steps or waits. -/
theorem ended_eq_none_iff (s : State) : s.ended = none ↔ (∃ t, step s = .next t) ∨ step s = .fault .awaitingInput := by
  rw [ended_eq]
  cases hblocked : s.blocked with
  | none => exact iff_of_true rfl (step_of_not_blocked hblocked)
  | some f =>
    have hf : f ≠ .awaitingInput := fun e => s.blocked_ne_awaitingInput (e ▸ hblocked)
    rw [step_of_blocked hblocked]
    simp [endOfStop_eq_none, hf]

/-! ### The end of a run -/

/-- The stop a run keeps to from some turn on, for the four ends that are stops. -/
def stopOfEnd : RunEnd → Option Fault
  | .halted => some .halted
  | .shutDown => some .shutDown
  | .faulted r => some (.alreadyFaulted r)
  | .stuck => some .awaitingInput
  | .diverging => none

theorem stopOfEnd_injective : Function.Injective stopOfEnd := by
  intro e e' h
  cases e <;> cases e' <;> simp_all [stopOfEnd]

theorem exists_end_of_stop (f : Fault) : ∃ e, stopOfEnd e = some f := by
  cases f with
  | alreadyFaulted r => exact ⟨.faulted r, rfl⟩
  | halted => exact ⟨.halted, rfl⟩
  | shutDown => exact ⟨.shutDown, rfl⟩
  | awaitingInput => exact ⟨.stuck, rfl⟩

/-- From some turn of the run on, every turn stops with `f`. -/
def StopsForGood (h : Schedule) (s : State) (f : Fault) : Prop := ∃ n, ∀ m, n ≤ m → step (runAt h s m) = .fault f

/-- A stop other than the wait, once shown, is shown for good. -/
theorem stopsForGood_of_step {h : Schedule} {s : State} {n : Nat} {f : Fault} (hf : f ≠ .awaitingInput)
    (hstep : step (runAt h s n) = .fault f) : StopsForGood h s f :=
  ⟨n, fun m hm => step_of_blocked (runAt_blocked ((step_fault_iff _ f hf).mp hstep) m hm)⟩

theorem stopsForGood_iff_exists {h : Schedule} {s : State} {f : Fault} (hf : f ≠ .awaitingInput) :
    (∃ n, step (runAt h s n) = .fault f) ↔ StopsForGood h s f :=
  ⟨fun ⟨_, hstep⟩ => stopsForGood_of_step hf hstep, fun ⟨n, hall⟩ => ⟨n, hall n (Nat.le_refl n)⟩⟩

/-- Each end but divergence is its stop shown for good. -/
theorem runEnds_iff_stopsForGood {h : Schedule} {s : State} {e : RunEnd} {f : Fault} (he : stopOfEnd e = some f) :
    RunEnds h s e ↔ StopsForGood h s f := by
  cases e with
  | halted => cases he; exact stopsForGood_iff_exists (by simp)
  | shutDown => cases he; exact stopsForGood_iff_exists (by simp)
  | faulted r => cases he; exact stopsForGood_iff_exists (by simp)
  | stuck => cases he; exact Iff.rfl
  | diverging => cases he

theorem stopsForGood_unique {h : Schedule} {s : State} {f g : Fault} (hf : StopsForGood h s f)
    (hg : StopsForGood h s g) : f = g := by
  obtain ⟨n, hn⟩ := hf
  obtain ⟨m, hm⟩ := hg
  have hsame := (hn (max n m) (le_max_left n m)).symm.trans (hm (max n m) (le_max_right n m))
  exact Host.Outcome.fault.inj hsame

/-- A run that stops for good does not step again and again. -/
theorem not_diverging_of_stopsForGood {h : Schedule} {s : State} {f : Fault} (hf : StopsForGood h s f) :
    ¬ RunEnds h s .diverging := by
  intro hdiv
  obtain ⟨n, hn⟩ := hf
  obtain ⟨m, hm, t, ht⟩ := hdiv n
  cases (hn m hm).symm.trans ht

/-- A run that from turn `n` on takes no step waits at every turn from `n` on, or shows another stop for good. -/
theorem stopsForGood_of_no_step {h : Schedule} {s : State} {n : Nat}
    (hn : ∀ m, n ≤ m → ∀ t, step (runAt h s m) ≠ .next t) : ∃ f, StopsForGood h s f := by
  by_cases hwait : ∀ m, n ≤ m → step (runAt h s m) = .fault .awaitingInput
  case pos => exact ⟨.awaitingInput, n, hwait⟩
  case neg =>
    obtain ⟨m, hm, hne⟩ : ∃ m, n ≤ m ∧ step (runAt h s m) ≠ .fault .awaitingInput := by
      simpa only [not_forall, exists_prop] using hwait
    cases hblocked : (runAt h s m).blocked with
    | some f => exact ⟨f, m, fun k hk => step_of_blocked (runAt_blocked hblocked k hk)⟩
    | none =>
      rcases step_of_not_blocked hblocked with ⟨t, ht⟩ | ht
      · exact absurd ht (hn m hm t)
      · exact absurd ht hne

/-- Every run diverges, or stops for good in one way. -/
theorem exists_unique_end (s : State) (h : Schedule) : ∃ e, RunEnds h s e ∧ ∀ e', RunEnds h s e' → e' = e := by
  by_cases hdiv : RunEnds h s .diverging
  case pos =>
    refine ⟨.diverging, hdiv, fun e' he' => ?_⟩
    cases hstop : stopOfEnd e' with
    | none => exact stopOfEnd_injective hstop
    | some f => exact absurd hdiv (not_diverging_of_stopsForGood ((runEnds_iff_stopsForGood hstop).mp he'))
  case neg =>
    obtain ⟨n, hn⟩ : ∃ n, ∀ m, n ≤ m → ∀ t, step (runAt h s m) ≠ .next t := by
      simpa only [RunEnds, not_forall, not_exists, not_and] using hdiv
    obtain ⟨f, hf⟩ := stopsForGood_of_no_step hn
    obtain ⟨e, he⟩ := exists_end_of_stop f
    refine ⟨e, (runEnds_iff_stopsForGood he).mpr hf, fun e' he' => ?_⟩
    cases hstop : stopOfEnd e' with
    | none =>
      obtain rfl : e' = .diverging := stopOfEnd_injective hstop
      exact absurd he' hdiv
    | some g =>
      have hsame : g = f := stopsForGood_unique ((runEnds_iff_stopsForGood hstop).mp he') hf
      exact stopOfEnd_injective (hstop.trans (hsame ▸ he.symm))

/-- Settles O60: the invariant by induction on reachability, the ends of a state from what blocks it, and the ends of a run
from the stop it keeps to. -/
theorem reachableStatesMeetTheInvariant : Obligations.ReachableStatesMeetTheInvariant := by
  unfold Obligations.ReachableStatesMeetTheInvariant
  refine ⟨fun s a h => ⟨Inv.host h a, s.host_cfg a⟩, fun cfg s hreach => ?_, exists_unique_end⟩
  obtain ⟨hinv, hcfg⟩ := reachable_inv hreach
  obtain ⟨hhalted, hfaulted, hshutDown⟩ := ended_iff hinv
  exact ⟨hinv, hcfg, hhalted, hfaulted, hshutDown, ended_eq_none_iff s⟩

end Sys2Proof
end
